-- ==== Sys2Proof/Word.lean ====
section
/-! DEFINITION. The fixed widths of the block (00_scope.md R10): a line byte has 8 bits, the FCS and a protocol
number have 16, the ACCM and a host register have 32. -/

namespace Sys2Proof

/-- A line byte, a byte of an event record or a byte of a content (R10, R11). -/
abbrev Byte := BitVec 8

/-- The FCS and a protocol number (R10). -/
abbrev Word16 := BitVec 16

/-- A host register and the ACCM (R10). -/
abbrev Word32 := BitVec 32

/-- The flag 0x7E, which delimits frames (R15, glossary). -/
abbrev flagByte : Byte := 0x7E#8

/-- The control escape 0x7D (R15, glossary). -/
abbrev escByte : Byte := 0x7D#8

end Sys2Proof
end

