-- ==== Sys2Proof/Config.lean ====
section
/-! DEFINITION. The implementation parameters (00_scope.md R9). The spec leaves them open and has a model take them as
arguments: here they are plain data that State carries, so that a claim over all states is a claim over every legal
choice of them (log 1). The model has no other open value, so there is no opaque constant. -/

namespace Sys2Proof

/-- The three parameters of R9. -/
structure Config where
  /-- `RX_BUF_LEN`: capacity of the receive buffer in un-stuffed bytes, FCS included. -/
  rxBufLen : Nat
  /-- `NPROTO`: number of entries of the protocol handler table. -/
  nproto : Nat
  /-- `REG_BASE`: where the platform places the register block; the block decodes offsets only (R51). -/
  regBase : Nat
deriving DecidableEq, Repr

/-- The constraints of R9: `RX_BUF_LEN ≥ 4` and `3 ≤ NPROTO ≤ 16`; any `REG_BASE`. -/
def Config.wf (c : Config) : Bool :=
  decide (4 ≤ c.rxBufLen) && decide (3 ≤ c.nproto) && decide (c.nproto ≤ 16)

/-- The reference values of R9: 1506 (PRESUMED: general knowledge in the spec itself) and 4; the base is a DESIGN CHOICE
(log 1). -/
def Config.reference : Config where
  rxBufLen := 1506
  nproto := 4
  regBase := 0

end Sys2Proof
end

