-- ==== Sys2Proof/Syntax.lean ====
section
/-! DEFINITION. What the block decodes: one constructor per row of the opcode table (30_encoding.md R75, R80, R81, R83,
R79), in its seven formats. -/

namespace Sys2Proof

/-- The seven formats of the opcode table. -/
inductive Format where
  | event
  | lineRx
  | txByte
  | contentAc
  | contentPf
  | hostWr
  | hostRd
deriving DecidableEq, Repr

/-- Why the event decoder refuses a record (R82): the verdict it names. -/
inductive Verdict where
  /-- "reserved event code": the record's first byte is this code. -/
  | reservedCode (code : Byte)
  /-- "truncated record": these are all the bytes there are. -/
  | truncated (record : List Byte)
deriving DecidableEq, Repr

/-- A register of the map of 20_memory.md R60, as an offset selects it (R79). -/
inductive RegSel where
  | accm
  | ctrl
  | status
  | proto (i : BitVec 4)
  | unmapped
deriving DecidableEq, Repr

/-- One constructor per row of the opcode table. The fields are the bits and bytes the row leaves free. -/
inductive Instr where
  -- event: the input transactions (R75)
  | reset
  | lineRx (b : Byte)
  | txstep
  | hostWr (off : Byte) (d : Word32)
  | hostRd (off : Byte)
  | frTx (x : List Byte)
  | muxTx (n : Word16) (info : List Byte)
  | reserved (v : Verdict)
  -- line_rx: the class of a line byte, key {F, E, b} (R80); `e` is the key's bit E where the row leaves it free
  | lrxHuntFlag (e : Bool)
  | lrxHuntSkip (e : Bool) (b : Byte)
  | lrxClose (e : Bool)
  | lrxEsc
  | lrxUnesc (b : Byte)
  | lrxData (b : Byte)
  -- tx_byte: the class of a byte to be sent (R81)
  | txbFlag
  | txbEsc
  | txbCtrl (b : Byte)
  | txbLit (b : Byte)
  -- content_ac: the head of a frame content (R83); the field is the rest, or the whole content
  | acPresent (p : List Byte)
  | acAbsent (c : List Byte)
  -- content_pf: the protocol field (R83) and the bytes after it
  | pfComp (p0 : Byte) (info : List Byte)
  | pfFull (p0 p1 : Byte) (info : List Byte)
  | pfBad (p : List Byte)
  -- host_wr: a register write by offset (R79)
  | wrAccm (d : Word32)
  | wrCtrl (d : Word32)
  | wrStatus (d : Word32)
  | wrProto (i : BitVec 4) (d : Word32)
  | wrUnmapped (off : Byte) (d : Word32)
  -- host_rd: a register read by offset (R79)
  | rdAccm
  | rdCtrl
  | rdStatus
  | rdProto (i : BitVec 4)
  | rdUnmapped (off : Byte)
deriving DecidableEq, Repr

/-- The format whose row the constructor is. -/
def Instr.format : Instr → Format
  | .reset | .lineRx _ | .txstep | .hostWr _ _ | .hostRd _ | .frTx _ | .muxTx _ _ | .reserved _ => .event
  | .lrxHuntFlag _ | .lrxHuntSkip _ _ | .lrxClose _ | .lrxEsc | .lrxUnesc _ | .lrxData _ => .lineRx
  | .txbFlag | .txbEsc | .txbCtrl _ | .txbLit _ => .txByte
  | .acPresent _ | .acAbsent _ => .contentAc
  | .pfComp _ _ | .pfFull _ _ _ | .pfBad _ => .contentPf
  | .wrAccm _ | .wrCtrl _ | .wrStatus _ | .wrProto _ _ | .wrUnmapped _ _ => .hostWr
  | .rdAccm | .rdCtrl | .rdStatus | .rdProto _ | .rdUnmapped _ => .hostRd

end Sys2Proof
end

