-- ==== Sys2Proof/WellFormed.lean ====
section
/-! DEFINITION. When a term of `Instr` is a row the table can give: its fields hold no value that an earlier row takes
(the tables are read first match wins, 30_encoding.md), and it fits its record. -/

namespace Sys2Proof

/-- A list of payload bytes fits a record's 16-bit length field (R75; the block itself sets no limit, log 12). -/
def fitsLength (x : List Byte) : Bool := decide (x.length < 65536)

/-- The bytes are a record of R75 cut short: its code is known and its fields are not all there (R82). -/
def recordCut : List Byte → Bool
  | [] => false
  | c :: r =>
    if c = 0x01#8 then decide (r.length < 1)
    else if c = 0x03#8 then decide (r.length < 5)
    else if c = 0x04#8 then decide (r.length < 1)
    else if c = 0x05#8 then
      match r with
      | h :: l :: x => decide (x.length < (h ++ l).toNat)
      | _ => true
    else if c = 0x06#8 then
      match r with
      | _ :: _ :: h :: l :: x => decide (x.length < (h ++ l).toNat)
      | _ => true
    else false

/-- The offset selects no register of the map of 20_memory.md R60. -/
def offsetUnmapped (nproto : Nat) (off : Byte) : Bool :=
  !(off = 0x00#8 || off = 0x04#8 || off = 0x08#8) &&
  !(decide (0x40 ≤ off.toNat) && decide (off.toNat < 0x40 + 4 * nproto) && decide (off.toNat < 0x80)
      && decide (off.toNat % 4 = 0))

/-- A content starts with the address and control bytes `FF 03` (R83). -/
def startsAddressControl : List Byte → Bool
  | a :: c :: _ => a = 0xFF#8 && c = 0x03#8
  | _ => false

/-- The bytes at a protocol field form row PF.BAD: even first byte and even second one, or a byte is missing
(R83; with a byte missing the row's note says SHORT). -/
def protocolFieldBad : List Byte → Bool
  | [] => true
  | [p0] => !p0.getLsbD 0
  | p0 :: p1 :: _ => !p0.getLsbD 0 && !p1.getLsbD 0

/-- The check. `nproto` is the parameter NPROTO, on which the host rows depend. -/
def Instr.wf (nproto : Nat) : Instr → Bool
  | .reset | .lineRx _ | .txstep | .hostWr _ _ | .hostRd _ => true
  | .frTx x => fitsLength x
  | .muxTx _ info => fitsLength info
  | .reserved (.reservedCode c) => decide (7 ≤ c.toNat)
  | .reserved (.truncated r) => recordCut r
  | .lrxHuntFlag _ | .lrxClose _ | .lrxEsc => true
  | .lrxHuntSkip _ b => b != flagByte
  | .lrxUnesc b => b != flagByte
  | .lrxData b => b != flagByte && b != escByte
  | .txbFlag | .txbEsc => true
  | .txbCtrl b => decide (b.toNat < 0x20)
  | .txbLit b => decide (0x20 ≤ b.toNat) && b != flagByte && b != escByte
  | .acPresent _ => true
  | .acAbsent c => !startsAddressControl c
  | .pfComp p0 _ => p0.getLsbD 0
  | .pfFull p0 p1 _ => !p0.getLsbD 0 && p1.getLsbD 0
  | .pfBad p => protocolFieldBad p
  | .wrAccm _ | .wrCtrl _ | .wrStatus _ => true
  | .wrProto i _ => decide (i.toNat < nproto)
  | .wrUnmapped off _ => offsetUnmapped nproto off
  | .rdAccm | .rdCtrl | .rdStatus => true
  | .rdProto i => decide (i.toNat < nproto)
  | .rdUnmapped off => offsetUnmapped nproto off

end Sys2Proof
end

