-- ==== Sys2Proof/Decode.lean ====
section
/-! DEFINITION. The decoder, total on any bytes (30_encoding.md R75, R79 to R83), and after it the encoder. Event records
and the keys of the inner formats are decoded apart, as the table has them apart. Rows are tried in table order. -/

namespace Sys2Proof

/-- What a decoder answers: an instruction and the bytes after it, or the name of what is wrong. -/
inductive Decoded where
  | ok (i : Instr) (rest : List Byte)
  /-- there is no byte to decode -/
  | nothing
  /-- an inner format's key or record is cut short -/
  | keyCutShort
  /-- a line_rx key has 10 bits (R80); the bits above them are not zero -/
  | notALineKey
  /-- a host_wr or host_rd record does not begin with its event code (R79) -/
  | wrongCode
deriving DecidableEq, Repr

/-- The record the bytes begin with is not all there: row RESERVED, "truncated record" (R82). -/
def truncatedRecord (record : List Byte) : Decoded := .ok (.reserved (.truncated record)) []

/-- Event decode (R75, R82). Multi-byte fields are big-endian. -/
def decodeEvent : List Byte → Decoded
  | [] => .nothing
  | c :: r =>
    if c = 0x00#8 then .ok .reset r
    else if c = 0x01#8 then
      match r with
      | b :: r' => .ok (.lineRx b) r'
      | [] => truncatedRecord (c :: r)
    else if c = 0x02#8 then .ok .txstep r
    else if c = 0x03#8 then
      match r with
      | off :: d3 :: d2 :: d1 :: d0 :: r' => .ok (.hostWr off (d3 ++ d2 ++ d1 ++ d0)) r'
      | _ => truncatedRecord (c :: r)
    else if c = 0x04#8 then
      match r with
      | off :: r' => .ok (.hostRd off) r'
      | [] => truncatedRecord (c :: r)
    else if c = 0x05#8 then
      match r with
      | nH :: nL :: x =>
        if (nH ++ nL).toNat ≤ x.length then .ok (.frTx (x.take (nH ++ nL).toNat)) (x.drop (nH ++ nL).toNat)
        else truncatedRecord (c :: r)
      | _ => truncatedRecord (c :: r)
    else if c = 0x06#8 then
      match r with
      | pH :: pL :: nH :: nL :: x =>
        if (nH ++ nL).toNat ≤ x.length then
          .ok (.muxTx (pH ++ pL) (x.take (nH ++ nL).toNat)) (x.drop (nH ++ nL).toNat)
        else truncatedRecord (c :: r)
      | _ => truncatedRecord (c :: r)
    else .ok (.reserved (.reservedCode c)) r

/-- Line byte decode (R80): the row of the key {F, E, b}. -/
def lineRow (f e : Bool) (b : Byte) : Instr :=
  if f then
    if b = flagByte then .lrxClose e
    else if e then .lrxUnesc b
    else if b = escByte then .lrxEsc
    else .lrxData b
  else if b = flagByte then .lrxHuntFlag e
  else .lrxHuntSkip e b

/-- A line_rx key of 10 bits, written in two bytes, high byte first. -/
def decodeLineKey : List Byte → Decoded
  | k :: b :: r =>
    if k.toNat < 4 then .ok (lineRow (k.getLsbD 1) (k.getLsbD 0) b) r else .notALineKey
  | _ => .keyCutShort

/-- Transmit byte classes (R81). -/
def txRow (b : Byte) : Instr :=
  if b = flagByte then .txbFlag
  else if b = escByte then .txbEsc
  else if b.toNat < 0x20 then .txbCtrl b
  else .txbLit b

def decodeTxByte : List Byte → Decoded
  | b :: r => .ok (txRow b) r
  | [] => .keyCutShort

/-- Address/control key (R83 item 1): AC.PRESENT keeps the bytes after `FF 03`, AC.ABSENT the whole content. -/
def contentRow (c : List Byte) : Instr :=
  match c with
  | a :: k :: p => if a = 0xFF#8 ∧ k = 0x03#8 then .acPresent p else .acAbsent c
  | _ => .acAbsent c

/-- Protocol field key (R83 item 2), with the row's note for a missing byte. -/
def fieldRow (p : List Byte) : Instr :=
  match p with
  | p0 :: r =>
    if p0.getLsbD 0 then .pfComp p0 r
    else
      match r with
      | p1 :: info => if p1.getLsbD 0 then .pfFull p0 p1 info else .pfBad p
      | [] => .pfBad p
  | [] => .pfBad p

/-- Register offset decode (R79): `off[7:6] = 01`, `off[1:0] = 00` and `off[5:2] < NPROTO` select PROTO[i]. -/
def regSelect (nproto : Nat) (off : Byte) : RegSel :=
  if off = 0x00#8 then .accm
  else if off = 0x04#8 then .ctrl
  else if off = 0x08#8 then .status
  else if off.extractLsb' 6 2 = 0b01#2 ∧ off.extractLsb' 0 2 = 0b00#2 ∧ (off.extractLsb' 2 4).toNat < nproto then
    .proto (off.extractLsb' 2 4)
  else .unmapped

/-- The host_wr row of an offset (R79). -/
def writeRow (nproto : Nat) (off : Byte) (d : Word32) : Instr :=
  match regSelect nproto off with
  | .accm => .wrAccm d
  | .ctrl => .wrCtrl d
  | .status => .wrStatus d
  | .proto i => .wrProto i d
  | .unmapped => .wrUnmapped off d

/-- The host_rd row of an offset (R79). -/
def readRow (nproto : Nat) (off : Byte) : Instr :=
  match regSelect nproto off with
  | .accm => .rdAccm
  | .ctrl => .rdCtrl
  | .status => .rdStatus
  | .proto i => .rdProto i
  | .unmapped => .rdUnmapped off

def decodeHostWr (nproto : Nat) : List Byte → Decoded
  | c :: off :: d3 :: d2 :: d1 :: d0 :: r =>
    if c = 0x03#8 then .ok (writeRow nproto off (d3 ++ d2 ++ d1 ++ d0)) r else .wrongCode
  | _ => .keyCutShort

def decodeHostRd (nproto : Nat) : List Byte → Decoded
  | c :: off :: r => if c = 0x04#8 then .ok (readRow nproto off) r else .wrongCode
  | _ => .keyCutShort

/-- The decoder of a format. A content has no length of its own (R85): its two formats take all the bytes. -/
def decode (nproto : Nat) (f : Format) (bytes : List Byte) : Decoded :=
  match f with
  | .event => decodeEvent bytes
  | .lineRx => decodeLineKey bytes
  | .txByte => decodeTxByte bytes
  | .contentAc => .ok (contentRow bytes) []
  | .contentPf => .ok (fieldRow bytes) []
  | .hostWr => decodeHostWr nproto bytes
  | .hostRd => decodeHostRd nproto bytes

/-- A 16-bit field, high byte first (R75). -/
def halfBytes (n : Word16) : List Byte := [n.extractLsb' 8 8, n.extractLsb' 0 8]

/-- A 32-bit field, high byte first (R75). -/
def wordBytes (d : Word32) : List Byte :=
  [d.extractLsb' 24 8, d.extractLsb' 16 8, d.extractLsb' 8 8, d.extractLsb' 0 8]

/-- A 16-bit length field (R75). -/
def lengthBytes (x : List Byte) : List Byte := halfBytes (BitVec.ofNat 16 x.length)

/-- The line_rx key {F, E, b} in two bytes. -/
def lineKey (f e : Bool) (b : Byte) : List Byte :=
  [(if f then 0x02#8 else 0x00#8) ||| (if e then 0x01#8 else 0x00#8), b]

/-- The offset of PROTO[i]: 0x40 + 4·i (R60). -/
def protoOffset (i : BitVec 4) : Byte := 0x40#8 ||| (i.setWidth 8 <<< 2)

/-- The encoder: the bytes of a row, in its format. -/
def encode : Instr → List Byte
  | .reset => [0x00#8]
  | .lineRx b => [0x01#8, b]
  | .txstep => [0x02#8]
  | .hostWr off d => 0x03#8 :: off :: wordBytes d
  | .hostRd off => [0x04#8, off]
  | .frTx x => 0x05#8 :: (lengthBytes x ++ x)
  | .muxTx n info => 0x06#8 :: (halfBytes n ++ lengthBytes info ++ info)
  | .reserved (.reservedCode c) => [c]
  | .reserved (.truncated r) => r
  | .lrxHuntFlag e => lineKey false e flagByte
  | .lrxHuntSkip e b => lineKey false e b
  | .lrxClose e => lineKey true e flagByte
  | .lrxEsc => lineKey true false escByte
  | .lrxUnesc b => lineKey true true b
  | .lrxData b => lineKey true false b
  | .txbFlag => [flagByte]
  | .txbEsc => [escByte]
  | .txbCtrl b => [b]
  | .txbLit b => [b]
  | .acPresent p => 0xFF#8 :: 0x03#8 :: p
  | .acAbsent c => c
  | .pfComp p0 info => p0 :: info
  | .pfFull p0 p1 info => p0 :: p1 :: info
  | .pfBad p => p
  | .wrAccm d => 0x03#8 :: 0x00#8 :: wordBytes d
  | .wrCtrl d => 0x03#8 :: 0x04#8 :: wordBytes d
  | .wrStatus d => 0x03#8 :: 0x08#8 :: wordBytes d
  | .wrProto i d => 0x03#8 :: protoOffset i :: wordBytes d
  | .wrUnmapped off d => 0x03#8 :: off :: wordBytes d
  | .rdAccm => [0x04#8, 0x00#8]
  | .rdCtrl => [0x04#8, 0x04#8]
  | .rdStatus => [0x04#8, 0x08#8]
  | .rdProto i => [0x04#8, protoOffset i]
  | .rdUnmapped off => [0x04#8, off]

/-- The `k` bytes of a table word, first byte first: the formats' keys and records are big-endian (R75). -/
def tableBytes : Nat → Nat → List Byte
  | 0, _ => []
  | k + 1, w => tableBytes k (w / 256) ++ [BitVec.ofNat 8 w]

/-- The operand bytes an event record has above the bits of its table row, all zero. -/
def operandZeros : List Byte := List.replicate 8 0x00#8

/-- The instruction of a result, if there is one. -/
def Decoded.instr? : Decoded → Option Instr
  | .ok i _ => some i
  | _ => none

/-- Table words of 16 bits. Different formats share words; which row a shared word is read as is log 10: the host rows
(their code is in the word), then AC.PRESENT, then the line keys of FRAME and the flag of HUNT, then the protocol field. -/
def decodeKey16 (nproto : Nat) (hi lo : Byte) : Option Instr :=
  if hi = 0x03#8 then (decode nproto .hostWr (hi :: lo :: operandZeros)).instr?
  else if hi = 0x04#8 then (decode nproto .hostRd [hi, lo]).instr?
  else if hi = 0xFF#8 ∧ lo = 0x03#8 then (decode nproto .contentAc [hi, lo]).instr?
  else if hi = 0x02#8 ∨ (hi = 0x00#8 ∧ lo = flagByte) then (decode nproto .lineRx [hi, lo]).instr?
  else (decode nproto .contentPf [hi, lo]).instr?

/-- Table words of 8 bits: the events; then the classes TXB.FLAG, TXB.ESC and TXB.CTRL; the catch-all RESERVED last
(log 10). -/
def decodeKey8 (nproto : Nat) (c : Byte) : Option Instr :=
  if c = flagByte ∨ c = escByte ∨ (7 ≤ c.toNat ∧ c.toNat < 0x20) then (decode nproto .txByte [c]).instr?
  else (decode nproto .event (c :: operandZeros)).instr?

/-- The instruction the decoder reads from a table word: the 8-bit and 16-bit rows as above, and any other width as an
event record with zero operands. The parameters are the reference ones (log 1). -/
def decodeTableWord (nbits w : Nat) : Option Instr :=
  if nbits = 8 then decodeKey8 Config.reference.nproto (BitVec.ofNat 8 w)
  else if nbits = 16 then
    decodeKey16 Config.reference.nproto (BitVec.ofNat 8 (w / 256)) (BitVec.ofNat 8 w)
  else (decode Config.reference.nproto .event (tableBytes ((nbits + 7) / 8) w ++ operandZeros)).instr?

end Sys2Proof
end

