-- ==== Sys2Proof/Machine/State.lean ====
section
/-! DEFINITION. The state of the block (10_state.md) as plain data, what it emits, and the reasons a step can stop. -/

namespace Sys2Proof.Machine

/-- `rx_mode` (R27). -/
inductive RxMode where
  /-- no flag has been seen since reset -/
  | hunt
  /-- a flag has been seen; the bytes since the last one are collected -/
  | frame
deriving DecidableEq, Repr

/-- CTRL (R24). Bits 31:2 are reserved, read as zero and ignore writes, so they are no storage (log 16). -/
structure Ctrl where
  /-- bit 0: address/control-field compression -/
  acfc : Bool
  /-- bit 1: protocol-field compression -/
  pfc : Bool
deriving DecidableEq, Repr

/-- PROTO[i] (R26). Bits 30:16 are reserved, read as zero and ignore writes, so they are no storage (log 16). -/
structure ProtoEntry where
  /-- bit 31 -/
  valid : Bool
  /-- bits 15:0 -/
  num : Word16
deriving DecidableEq, Repr

/-- The causes of a silent discard (60_exceptions.md R241), in their order of test. -/
inductive DiscardCause where
  | abort
  | overflow
  | empty
  | runt
  | badFcs
  | noAc
  | short
  | pfcOff
  | badProto
deriving DecidableEq, Repr

/-- The codes of R241, which order the names. -/
def DiscardCause.code : DiscardCause → Nat
  | .abort => 1
  | .overflow => 2
  | .empty => 3
  | .runt => 4
  | .badFcs => 5
  | .noAc => 6
  | .short => 7
  | .pfcOff => 8
  | .badProto => 9

/-- One entry of the event history (R35): a transaction on an output port (00_scope.md R4), the value a host read
returned, or the model's record of a discard (R241), which nothing outside sees (R242). -/
inductive Output where
  | lineTx (b : Byte)
  | frRx (c : List Byte)
  | muxRx (i : Nat) (info : List Byte)
  | muxRej (n : Word16) (info : List Byte)
  | hostRd (v : Word32)
  | discard (cause : DiscardCause)
deriving DecidableEq, Repr

/-- A transaction on `FR_TX` or `MUX_TX` (00_scope.md R4). -/
inductive Submission where
  | fr (x : List Byte)
  | mux (n : Word16) (info : List Byte)
deriving DecidableEq, Repr

/-- The input ports that can hold (60_exceptions.md R245). -/
inductive TxPort where
  | frTx
  | muxTx
deriving DecidableEq, Repr

/-- The port a submission is presented on. -/
def Submission.port : Submission → TxPort
  | .fr _ => .frTx
  | .mux _ _ => .muxTx

/-- Whose step comes first when a held submission can be accepted and a record waits as well (log 4). -/
inductive Turn where
  /-- the held submission: 40_hdlc_send.md R102, "at the first step at which the queue is empty" -/
  | submission
  /-- the record, as in V4.2 of 95_test_vectors.md and 70_reset_and_hazards.md R279 -/
  | record
deriving DecidableEq, Repr

/-- The block has no trap, exception or fault (60_exceptions.md R240), so there is no reason a step could fault: the type
has no constructor. -/
inductive Fault
deriving DecidableEq, Repr

/-- Why a step can be refused. -/
inductive Refusal where
  /-- An instruction with no meaning yet, by its mnemonic in the opcode table. Only an arm of `exec` may answer it. Safe. -/
  | notModelled (mnemonic : String)
  /-- "reserved event code" (R82, R244): raised by row RESERVED, on a record whose code is 0x07 to 0xFF. The spec has the
  decoder refuse it and gives it no step. Safe. -/
  | reservedEventCode (code : Byte)
  /-- "truncated record" (R82, R244): raised by row RESERVED, on a record cut short. The spec has the decoder refuse it and
  gives it no step. Safe. -/
  | truncatedRecord (record : List Byte)
deriving DecidableEq, Repr

/-- The state. The first block is 10_state.md whole (R20); STATUS is computed, not stored (R25). -/
structure State where
  /-- the implementation parameters (00_scope.md R9); no step changes them (log 1) -/
  config : Config
  /-- ACCM (R23) -/
  accm : Word32
  /-- CTRL (R24) -/
  ctrl : Ctrl
  /-- PROTO[0..NPROTO-1] (R26) -/
  proto : List ProtoEntry
  /-- `rx_mode` (R27) -/
  rxMode : RxMode
  /-- `rx_esc` (R28) -/
  rxEsc : Bool
  /-- `rx_ovf` (R29) -/
  rxOvf : Bool
  /-- `rx_buf` (R30) -/
  rxBuf : List Byte
  /-- `tx_queue` (R31) -/
  txQueue : List Byte
  /-- the model's: what the block has emitted, oldest first (R35, log 5) -/
  history : List Output
  /-- the model's: the event records still to be presented, in the order of the agents' steps (R75, R61, log 2) -/
  input : List Byte
  /-- the model's: the submissions that hold and that their senders keep, oldest first (R13, R221, log 3) -/
  held : List Submission
  /-- the model's: whose step comes first, each time a held submission and a record could both go; when the list is used up,
  the held submission (log 4) -/
  order : List Turn
deriving DecidableEq, Repr

/-- The state RESET leaves, for any parameters (70_reset_and_hazards.md R270); nothing presented, nothing emitted. -/
def State.resetWith (c : Config) : State where
  config := c
  accm := 0xFFFFFFFF#32
  ctrl := { acfc := false, pfc := false }
  proto := List.replicate c.nproto { valid := false, num := 0x0000#16 }
  rxMode := .hunt
  rxEsc := false
  rxOvf := false
  rxBuf := []
  txQueue := []
  history := []
  input := []
  held := []
  order := []

/-- The machine right after reset, with the reference parameters (log 1). -/
def State.reset : State := State.resetWith Config.reference

end Sys2Proof.Machine
end

