-- ==== Sys2Proof/Machine/Operands.lean ====
section
/-! DEFINITION. Operand assembly: byte-stuffing and its inverse (42_byte_stuffing.md), the CRC (43_crc16.md), the frame's
line form (40_hdlc_send.md), the protocol field (44_ppp_mux.md) and register words (45_host_interface.md). Pure functions. -/

namespace Sys2Proof.Machine

/-- `esc(b, accm)` (R150): ACCM bit `b` is consulted for `b < 0x20` only (R78). -/
def esc (accm : Word32) (b : Byte) : Bool :=
  b = flagByte || b = escByte || (decide (b.toNat < 0x20) && accm.getLsbD b.toNat)

/-- The two line bytes of an escaped byte: 0x7D, then the byte xor 0x20 (R71). -/
def escapePair (b : Byte) : List Byte := [escByte, b ^^^ 0x20#8]

/-- `stuff_byte` (R151). -/
def stuffByte (accm : Word32) (b : Byte) : List Byte :=
  if esc accm b then escapePair b else [b]

/-- `stuff` (R152). -/
def stuff (accm : Word32) (x : List Byte) : List Byte := x.flatMap (stuffByte accm)

/-- `unstuff` (R154), with the dangling escape as the second component. -/
def unstuff : List Byte → List Byte × Bool
  | [] => ([], false)
  | [b] => if b = escByte then ([], true) else ([b], false)
  | b :: b' :: r =>
    if b = escByte then ((b' ^^^ 0x20#8) :: (unstuff r).1, (unstuff r).2)
    else (b :: (unstuff (b' :: r)).1, (unstuff (b' :: r)).2)

/-- One shift of the CRC register (R165). -/
def crcShift (r : Word16) : Word16 :=
  if r.getLsbD 0 then (r >>> 1) ^^^ 0x8408#16 else r >>> 1

/-- `k` shifts of the CRC register. -/
def crcShifts : Nat → Word16 → Word16
  | 0, r => r
  | k + 1, r => crcShifts k (crcShift r)

/-- `crc_step` (R165). -/
def crcStep (r : Word16) (b : Byte) : Word16 := crcShifts 8 (r ^^^ b.setWidth 16)

/-- `crc_reg` (R166). -/
def crcReg (x : List Byte) : Word16 := x.foldl crcStep 0xFFFF#16

/-- `fcs16` (R167). -/
def fcs16 (x : List Byte) : Word16 := crcReg x ^^^ 0xFFFF#16

/-- `fcs_bytes` (R168): low byte first. -/
def fcsBytes (x : List Byte) : List Byte := [(fcs16 x).extractLsb' 0 8, (fcs16 x).extractLsb' 8 8]

/-- `fcs_ok` (R170), the normative comparison. -/
def fcsOk (c : List Byte) (r : Word16) : Bool := fcs16 c = r

/-- The received FCS: `rx_buf(n-2) or (rx_buf(n-1) << 8)` (R76). -/
def receivedFcs (buf : List Byte) : Word16 :=
  (buf.getD (buf.length - 2) 0).setWidth 16 ||| ((buf.getD (buf.length - 1) 0).setWidth 16 <<< 8)

/-- The received content: all but the last two bytes (R128). -/
def receivedContent (buf : List Byte) : List Byte := buf.take (buf.length - 2)

/-- `content(x, acfc)` (R100). -/
def txContent (x : List Byte) (acfc : Bool) : List Byte :=
  if acfc then x else 0xFF#8 :: 0x03#8 :: x

/-- `encode(x, accm, acfc)` (R101). -/
def lineForm (x : List Byte) (accm : Word32) (acfc : Bool) : List Byte :=
  [flagByte] ++ stuff accm (txContent x acfc ++ fcsBytes (txContent x acfc)) ++ [flagByte]

/-- `pfield(n, pfc)` (R181). -/
def protocolField (n : Word16) (pfc : Bool) : List Byte :=
  if pfc && decide (n.toNat ≤ 0x00FE) && n.getLsbD 0 then [n.extractLsb' 0 8]
  else [n.extractLsb' 8 8, n.extractLsb' 0 8]

/-- The payload a submission gives the framer (R102, R182). -/
def Submission.payload (pfc : Bool) : Submission → List Byte
  | .fr x => x
  | .mux n info => protocolField n pfc ++ info

/-- Handler lookup and dispatch (R187 to R189): the least valid entry that holds the number, else the rejection port. -/
def dispatch (proto : List ProtoEntry) (n : Word16) (info : List Byte) : Output :=
  match proto.findIdx? (fun e => e.valid && e.num == n) with
  | some i => .muxRx i info
  | none => .muxRej n info

/-- Row PF.COMP (R185). -/
def compressedField (ctrl : Ctrl) (proto : List ProtoEntry) (p0 : Byte) (info : List Byte) : Output :=
  if ctrl.pfc then dispatch proto (p0.setWidth 16) info else .discard .pfcOff

/-- Row PF.BAD, and the contents too short for their field (R185). -/
def badField (p : List Byte) : Output :=
  if p.length < 2 then .discard .short else .discard .badProto

/-- The protocol field stage (R185). -/
def protocolStage (ctrl : Ctrl) (proto : List ProtoEntry) (p : List Byte) : Output :=
  match p with
  | [] => .discard .short
  | p0 :: r =>
    if p0.getLsbD 0 then compressedField ctrl proto p0 r
    else
      match r with
      | [] => .discard .short
      | p1 :: info => if p1.getLsbD 0 then dispatch proto (p0 ++ p1) info else .discard .badProto

/-- Row AC.ABSENT (R184). -/
def absentAddress (ctrl : Ctrl) (proto : List ProtoEntry) (c : List Byte) : Output :=
  if ctrl.acfc then protocolStage ctrl proto c else .discard .noAc

/-- `demux(c)` (R184 to R187). It emits one transaction, or records one discard. -/
def demux (ctrl : Ctrl) (proto : List ProtoEntry) (c : List Byte) : Output :=
  if startsAddressControl c then protocolStage ctrl proto (c.drop 2) else absentAddress ctrl proto c

/-- What `close_frame` emits (R128, R129): the first check that applies decides. -/
def closeOutputs (ctrl : Ctrl) (proto : List ProtoEntry) (esc ovf : Bool) (buf : List Byte) : List Output :=
  if esc then [.discard .abort]
  else if ovf then [.discard .overflow]
  else if buf.length = 0 then [.discard .empty]
  else if buf.length = 1 then [.discard .runt]
  else if fcsOk (receivedContent buf) (receivedFcs buf) then
    [.frRx (receivedContent buf), demux ctrl proto (receivedContent buf)]
  else [.discard .badFcs]

/-- CTRL as a register value (R217). -/
def Ctrl.word (c : Ctrl) : Word32 :=
  ((BitVec.ofBool c.pfc).setWidth 32 <<< 1) ||| (BitVec.ofBool c.acfc).setWidth 32

/-- The fields of CTRL from a written value (R212). -/
def Ctrl.ofWord (d : Word32) : Ctrl where
  acfc := d.getLsbD 0
  pfc := d.getLsbD 1

/-- PROTO[i] as a register value (R219). -/
def ProtoEntry.word (e : ProtoEntry) : Word32 :=
  ((BitVec.ofBool e.valid).setWidth 32 <<< 31) ||| e.num.setWidth 32

/-- The fields of PROTO[i] from a written value (R214). -/
def ProtoEntry.ofWord (d : Word32) : ProtoEntry where
  valid := d.getLsbD 31
  num := d.extractLsb' 0 16

end Sys2Proof.Machine
end

