-- ==== Sys2Proof/Machine/Flags.lean ====
section
/-! DEFINITION. The status bits (10_state.md R25, R33). The block has no condition codes; no operation writes these bits, each
changes as `tx_queue` and `rx_mode` change. -/

namespace Sys2Proof.Machine

/-- `TX_BUSY` (R25): `tx_queue ≠ []`. -/
def State.txBusy (s : State) : Bool := !s.txQueue.isEmpty

/-- `RX_HUNT` (R25): `rx_mode = HUNT`. -/
def State.rxHunt (s : State) : Bool := s.rxMode = .hunt

/-- STATUS as a register value (R218). -/
def State.statusWord (s : State) : Word32 :=
  ((BitVec.ofBool s.rxHunt).setWidth 32 <<< 1) ||| (BitVec.ofBool s.txBusy).setWidth 32

end Sys2Proof.Machine
end

