-- ==== Sys2Proof/Machine/Ops.lean ====
section
/-! DEFINITION. The operations the meanings share: emitting, the receive buffer, closing a frame, accepting and holding a
submission, registers by name, RESET. The block takes no exception and returns from none (60_exceptions.md R240, R248): what
stands in their place is a discard, which is one record in the history and no other effect (R242). -/

namespace Sys2Proof.Machine

/-- `emit` (00_scope.md R13): one more entry of the event history. -/
def State.emit (s : State) (o : Output) : State := { s with history := s.history ++ [o] }

/-- Several emissions of one step, in the order written (20_memory.md R62). -/
def State.emits (s : State) (os : List Output) : State := { s with history := s.history ++ os }

/-- `append(v)` (R126). -/
def State.appendRx (s : State) (v : Byte) : State :=
  if s.rxBuf.length < s.config.rxBufLen then { s with rxBuf := s.rxBuf ++ [v] } else { s with rxOvf := true }

/-- The receiver at the start of a frame (R121, R127): empty buffer, no escape pending, no overflow. -/
def State.clearRx (s : State) : State := { s with rxBuf := [], rxEsc := false, rxOvf := false }

/-- `close_frame()` (R128, R129): emits only. -/
def State.closeFrame (s : State) : State :=
  s.emits (closeOutputs s.ctrl s.proto s.rxEsc s.rxOvf s.rxBuf)

/-- Line bytes joined to the end of the transmit queue. -/
def State.pushLine (s : State) (bs : List Byte) : State := { s with txQueue := s.txQueue ++ bs }

/-- A submission is accepted (R102, R182): the whole line form, with the registers read now (R63). -/
def State.accept (s : State) (sub : Submission) : State :=
  { s with txQueue := lineForm (sub.payload s.ctrl.pfc) s.accm s.ctrl.acfc }

/-- A submission holds (R13, R102, R182): nothing of the block changes and its sender keeps it, behind the older ones
(log 3). -/
def State.hold (s : State) (sub : Submission) : State := { s with held := s.held ++ [sub] }

/-- The submission is presented on this port. -/
def onPort (p : TxPort) (sub : Submission) : Bool := sub.port = p

/-- `FR_TX` and `MUX_TX` (R102, R182): the port presents its transactions in the order its sender gave them (20_memory.md
R62), so while an older one is held it is the oldest that is accepted when `tx_queue = []`, and the new one holds. -/
def State.submit (s : State) (sub : Submission) : State :=
  if s.txQueue = [] then
    match s.held.find? (onPort sub.port) with
    | some old => (State.accept { s with held := s.held.eraseP (onPort sub.port) } old).hold sub
    | none => s.accept sub
  else s.hold sub

/-- A held submission can be accepted: the queue is empty (R245). -/
def State.awaiting (s : State) : Bool := s.txQueue.isEmpty && !s.held.isEmpty

/-- The oldest held submission is accepted, in a step of its own (R102). -/
def State.acceptOldest (s : State) : State :=
  match s.held with
  | sub :: rest => State.accept { s with held := rest } sub
  | [] => s

/-- `TXSTEP` (R103). -/
def State.sendByte (s : State) : State :=
  match s.txQueue with
  | b :: q => { s with txQueue := q, history := s.history ++ [.lineTx b] }
  | [] => s

/-- PROTO[i] of the table, `i < NPROTO`; 0 where there is no such entry (R219, R220). -/
def State.protoWord (s : State) (i : BitVec 4) : Word32 :=
  if i.toNat < s.config.nproto then
    match s.proto[i.toNat]? with
    | some e => e.word
    | none => 0#32
  else 0#32

/-- Write PROTO[i], `i < NPROTO` (R214); ignored where there is no such entry (R215). -/
def State.setProto (s : State) (i : BitVec 4) (d : Word32) : State :=
  if i.toNat < s.config.nproto then { s with proto := s.proto.set i.toNat (ProtoEntry.ofWord d) } else s

/-- The value a host read of a register returns (R216 to R220); no read changes state (R54). -/
def State.readReg (s : State) : RegSel → Word32
  | .accm => s.accm
  | .ctrl => s.ctrl.word
  | .status => s.statusWord
  | .proto i => s.protoWord i
  | .unmapped => 0#32

/-- A host write of a register (R211 to R215). -/
def State.writeReg (s : State) (d : Word32) : RegSel → State
  | .accm => { s with accm := d }
  | .ctrl => { s with ctrl := Ctrl.ofWord d }
  | .status => s
  | .proto i => s.setProto i d
  | .unmapped => s

/-- A host read (R210): the value returned is recorded (R35), nothing else happens. -/
def State.hostRead (s : State) (r : RegSel) : State := s.emit (.hostRd (s.readReg r))

/-- RESET (R270): every field of 10_state.md at its reset value. It emits nothing, and what the senders keep and what is
still to come stay (R271). -/
def State.toReset (s : State) : State :=
  { s with
    accm := 0xFFFFFFFF#32
    ctrl := { acfc := false, pfc := false }
    proto := List.replicate s.config.nproto { valid := false, num := 0x0000#16 }
    rxMode := .hunt
    rxEsc := false
    rxOvf := false
    rxBuf := []
    txQueue := [] }

end Sys2Proof.Machine
end

