-- ==== Sys2Proof/Machine/HostRegs.lean ====
section
/-! DEFINITION. Host register operations (45_host_interface.md): the rows of host_wr and host_rd, and the events HOST_WR and
HOST_RD that the offset decodes further (30_encoding.md R79). -/

namespace Sys2Proof.Machine

/-- WR.ACCM (R211). -/
def execWrAccm (d : Word32) (s : State) : Host.Outcome State Fault Refusal := .next (s.writeReg d .accm)

/-- WR.CTRL (R212). -/
def execWrCtrl (d : Word32) (s : State) : Host.Outcome State Fault Refusal := .next (s.writeReg d .ctrl)

/-- WR.STATUS (R213): ignored. -/
def execWrStatus (d : Word32) (s : State) : Host.Outcome State Fault Refusal := .next (s.writeReg d .status)

/-- WR.PROTO (R214). DESIGN CHOICE (log 18): run directly with an index not below NPROTO it is ignored. -/
def execWrProto (i : BitVec 4) (d : Word32) (s : State) : Host.Outcome State Fault Refusal :=
  .next (s.writeReg d (.proto i))

/-- WR.UNMAPPED (R215): ignored. DESIGN CHOICE (log 20): the row's offset is not tested again, so run directly with a mapped
offset, which `Instr.wf` excludes, it is ignored too. -/
def execWrUnmapped (d : Word32) (s : State) : Host.Outcome State Fault Refusal := .next (s.writeReg d .unmapped)

/-- RD.ACCM (R216). -/
def execRdAccm (s : State) : Host.Outcome State Fault Refusal := .next (s.hostRead .accm)

/-- RD.CTRL (R217). -/
def execRdCtrl (s : State) : Host.Outcome State Fault Refusal := .next (s.hostRead .ctrl)

/-- RD.STATUS (R218). -/
def execRdStatus (s : State) : Host.Outcome State Fault Refusal := .next (s.hostRead .status)

/-- RD.PROTO (R219). DESIGN CHOICE (log 18): run directly with an index not below NPROTO it returns 0. -/
def execRdProto (i : BitVec 4) (s : State) : Host.Outcome State Fault Refusal := .next (s.hostRead (.proto i))

/-- RD.UNMAPPED (R220): returns 0. DESIGN CHOICE (log 20): the row's offset is not tested again, so run directly with a
mapped offset, which `Instr.wf` excludes, it returns 0 too. -/
def execRdUnmapped (s : State) : Host.Outcome State Fault Refusal := .next (s.hostRead .unmapped)

/-- HOST_WR (R210, R79): the row the offset selects. -/
def execHostWr (off : Byte) (d : Word32) (s : State) : Host.Outcome State Fault Refusal :=
  match regSelect s.config.nproto off with
  | .accm => execWrAccm d s
  | .ctrl => execWrCtrl d s
  | .status => execWrStatus d s
  | .proto i => execWrProto i d s
  | .unmapped => execWrUnmapped d s

/-- HOST_RD (R210, R79): the row the offset selects. -/
def execHostRd (off : Byte) (s : State) : Host.Outcome State Fault Refusal :=
  match regSelect s.config.nproto off with
  | .accm => execRdAccm s
  | .ctrl => execRdCtrl s
  | .status => execRdStatus s
  | .proto i => execRdProto i s
  | .unmapped => execRdUnmapped s

end Sys2Proof.Machine
end

