-- ==== Sys2Proof/Machine/Mux.lean ====
section
/-! DEFINITION. The rows of content_ac and content_pf (44_ppp_mux.md R184, R185): what M does from that row on, in the step of
the closing flag. M has no state; the content is the row's operand (log 8), whatever its bytes
(log 20). -/

namespace Sys2Proof.Machine

/-- AC.PRESENT (R184): `FF 03` is stripped, the protocol field stage follows. -/
def execAcPresent (p : List Byte) (s : State) : Host.Outcome State Fault Refusal :=
  .next (s.emit (protocolStage s.ctrl s.proto p))

/-- AC.ABSENT (R184): accepted only with ACFC = 1, else NO_AC. -/
def execAcAbsent (c : List Byte) (s : State) : Host.Outcome State Fault Refusal :=
  .next (s.emit (absentAddress s.ctrl s.proto c))

/-- PF.COMP (R185): PFC_OFF unless PFC = 1, else dispatched under `zext_16(p0)`. -/
def execPfComp (p0 : Byte) (info : List Byte) (s : State) : Host.Outcome State Fault Refusal :=
  .next (s.emit (compressedField s.ctrl s.proto p0 info))

/-- PF.FULL (R185): dispatched under `(p0 << 8) or p1`. -/
def execPfFull (p0 p1 : Byte) (info : List Byte) (s : State) : Host.Outcome State Fault Refusal :=
  .next (s.emit (dispatch s.proto (p0 ++ p1) info))

/-- PF.BAD (R185): BAD_PROTO, or SHORT if a byte of the field is missing. -/
def execPfBad (p : List Byte) (s : State) : Host.Outcome State Fault Refusal := .next (s.emit (badField p))

end Sys2Proof.Machine
end

