-- ==== Sys2Proof/Machine/Receive.lean ====
section
/-! DEFINITION. The receive path: LINE_RX and the rows of line_rx (41_hdlc_receive.md). A row's meaning is the pseudocode of
its rule; LINE_RX selects the row by the key {F, E, b} (log 6, and log 20 for a byte outside the key). -/

namespace Sys2Proof.Machine

/-- LRX.HUNT_FLAG (R121). -/
def execLrxHuntFlag (s : State) : Host.Outcome State Fault Refusal := .next { s.clearRx with rxMode := .frame }

/-- LRX.HUNT_SKIP (R122): no state change, nothing emitted. -/
def execLrxHuntSkip (s : State) : Host.Outcome State Fault Refusal := .next s

/-- LRX.CLOSE (R127): the frame is closed (R128, R129) and the next one opened. -/
def execLrxClose (s : State) : Host.Outcome State Fault Refusal := .next s.closeFrame.clearRx

/-- LRX.ESC (R123). -/
def execLrxEsc (s : State) : Host.Outcome State Fault Refusal := .next { s with rxEsc := true }

/-- LRX.UNESC (R124). -/
def execLrxUnesc (b : Byte) (s : State) : Host.Outcome State Fault Refusal :=
  .next (State.appendRx { s with rxEsc := false } (b ^^^ 0x20#8))

/-- LRX.DATA (R125). -/
def execLrxData (b : Byte) (s : State) : Host.Outcome State Fault Refusal := .next (s.appendRx b)

/-- LINE_RX (R80): the first row that the key {F, E, b} matches. -/
def execLineRx (b : Byte) (s : State) : Host.Outcome State Fault Refusal :=
  match s.rxMode with
  | .hunt => if b = flagByte then execLrxHuntFlag s else execLrxHuntSkip s
  | .frame =>
    if b = flagByte then execLrxClose s
    else if s.rxEsc then execLrxUnesc b s
    else if b = escByte then execLrxEsc s
    else execLrxData b s

end Sys2Proof.Machine
end

