-- ==== Sys2Proof/Machine/System.lean ====
section
/-! DEFINITION. The rows RESET (70_reset_and_hazards.md R270) and RESERVED (30_encoding.md R82). -/

namespace Sys2Proof.Machine

/-- RESET (R270). -/
def execReset (s : State) : Host.Outcome State Fault Refusal := .next s.toReset

/-- RESERVED (R82, R244): the decoder refuses the record by name; it has no meaning and no step. A verdict
the decoder does not give is refused likewise (log 20). -/
def execReserved (v : Verdict) (_s : State) : Host.Outcome State Fault Refusal :=
  match v with
  | .reservedCode c => .refused (.reservedEventCode c)
  | .truncated r => .refused (.truncatedRecord r)

end Sys2Proof.Machine
end

