-- ==== Sys2Proof/Machine/Transmit.lean ====
section
/-! DEFINITION. The transmit path: FR_TX, MUX_TX and TXSTEP (40_hdlc_send.md, 44_ppp_mux.md), and the rows of tx_byte
(30_encoding.md R81). A tx_byte row, as an instruction, joins the line bytes of its byte to the line form in `tx_queue`
(log 7), whatever the byte (log 20). -/

namespace Sys2Proof.Machine

/-- FR_TX (R102). -/
def execFrTx (x : List Byte) (s : State) : Host.Outcome State Fault Refusal := .next (s.submit (.fr x))

/-- MUX_TX (R182); the number is not checked (R183). -/
def execMuxTx (n : Word16) (info : List Byte) (s : State) : Host.Outcome State Fault Refusal :=
  .next (s.submit (.mux n info))

/-- TXSTEP (R103). -/
def execTxstep (s : State) : Host.Outcome State Fault Refusal := .next s.sendByte

/-- TXB.FLAG: sent as `7D 5E`, always (R81). -/
def execTxbFlag (s : State) : Host.Outcome State Fault Refusal := .next (s.pushLine [0x7D#8, 0x5E#8])

/-- TXB.ESC: sent as `7D 5D`, always (R81). -/
def execTxbEsc (s : State) : Host.Outcome State Fault Refusal := .next (s.pushLine [0x7D#8, 0x5D#8])

/-- TXB.CTRL: sent as `7D (b xor 0x20)` when ACCM[b] = 1, else as `b` (R81). -/
def execTxbCtrl (b : Byte) (s : State) : Host.Outcome State Fault Refusal :=
  .next (s.pushLine (if s.accm.getLsbD b.toNat then escapePair b else [b]))

/-- TXB.LIT: sent as `b` (R81). -/
def execTxbLit (b : Byte) (s : State) : Host.Outcome State Fault Refusal := .next (s.pushLine [b])

end Sys2Proof.Machine
end

