-- ==== Sys2Proof/Machine/Dispatch.lean ====
section
/-! DEFINITION. One arm per row of the opcode table. -/

namespace Sys2Proof.Machine

def exec (i : Instr) (s : State) : Host.Outcome State Fault Refusal :=
  match i with
  -- event
  | .reset => Sys2Proof.Machine.execReset s
  | .lineRx b => Sys2Proof.Machine.execLineRx b s
  | .txstep => Sys2Proof.Machine.execTxstep s
  | .hostWr off d => Sys2Proof.Machine.execHostWr off d s
  | .hostRd off => Sys2Proof.Machine.execHostRd off s
  | .frTx x => Sys2Proof.Machine.execFrTx x s
  | .muxTx n info => Sys2Proof.Machine.execMuxTx n info s
  | .reserved v => Sys2Proof.Machine.execReserved v s
  -- line_rx
  | .lrxHuntFlag _ => Sys2Proof.Machine.execLrxHuntFlag s
  | .lrxHuntSkip _ _ => Sys2Proof.Machine.execLrxHuntSkip s
  | .lrxClose _ => Sys2Proof.Machine.execLrxClose s
  | .lrxEsc => Sys2Proof.Machine.execLrxEsc s
  | .lrxUnesc b => Sys2Proof.Machine.execLrxUnesc b s
  | .lrxData b => Sys2Proof.Machine.execLrxData b s
  -- tx_byte
  | .txbFlag => Sys2Proof.Machine.execTxbFlag s
  | .txbEsc => Sys2Proof.Machine.execTxbEsc s
  | .txbCtrl b => Sys2Proof.Machine.execTxbCtrl b s
  | .txbLit b => Sys2Proof.Machine.execTxbLit b s
  -- content_ac
  | .acPresent p => Sys2Proof.Machine.execAcPresent p s
  | .acAbsent c => Sys2Proof.Machine.execAcAbsent c s
  -- content_pf
  | .pfComp p0 info => Sys2Proof.Machine.execPfComp p0 info s
  | .pfFull p0 p1 info => Sys2Proof.Machine.execPfFull p0 p1 info s
  | .pfBad p => Sys2Proof.Machine.execPfBad p s
  -- host_wr
  | .wrAccm d => Sys2Proof.Machine.execWrAccm d s
  | .wrCtrl d => Sys2Proof.Machine.execWrCtrl d s
  | .wrStatus d => Sys2Proof.Machine.execWrStatus d s
  | .wrProto k d => Sys2Proof.Machine.execWrProto k d s
  | .wrUnmapped _ d => Sys2Proof.Machine.execWrUnmapped d s
  -- host_rd
  | .rdAccm => Sys2Proof.Machine.execRdAccm s
  | .rdCtrl => Sys2Proof.Machine.execRdCtrl s
  | .rdStatus => Sys2Proof.Machine.execRdStatus s
  | .rdProto k => Sys2Proof.Machine.execRdProto k s
  | .rdUnmapped _ => Sys2Proof.Machine.execRdUnmapped s

end Sys2Proof.Machine
end

