-- ==== Sys2Proof/Machine/Fetch.lean ====
section
/-! DEFINITION. Which transaction the next step takes. The agents' steps are one total order (20_memory.md R61), given from
outside as the records of `input` (log 2). A held submission is accepted at the first step at which the queue is empty
(40_hdlc_send.md R102), unless `order` gives that step to the record (log 4). When no record is left, the transmit engine
moves while the queue is not empty (70_reset_and_hazards.md R279). -/

namespace Sys2Proof.Machine

/-- What a step does. -/
inductive NextEvent where
  /-- an instruction, on this state -/
  | run (i : Instr) (s : State)
  /-- the oldest held submission of this state is accepted -/
  | acceptHeld (s : State)
  /-- nothing is to be done -/
  | idle
deriving DecidableEq, Repr

/-- A record waits. -/
def recordTurn (s : State) (i : Instr) (rest : List Byte) : NextEvent :=
  if s.awaiting then
    match s.order with
    | .record :: o => .run i { s with input := rest, order := o }
    | .submission :: o => .acceptHeld { s with order := o }
    | [] => .acceptHeld s
  else .run i { s with input := rest }

/-- No record waits: the agents inside the model (log 4). -/
def backgroundEvent (s : State) : NextEvent :=
  if s.awaiting then .acceptHeld s
  else if s.txQueue = [] then .idle
  else .run .txstep s

/-- The next step. -/
def nextEvent (s : State) : NextEvent :=
  match decodeEvent s.input with
  | .ok i rest => recordTurn s i rest
  | _ => backgroundEvent s

/-- The record put where the next step fetches; where a held submission would go first, the record is given that step. -/
def State.present (s : State) (record : List Byte) : State :=
  { s with
    input := record ++ s.input
    order := if s.awaiting then .record :: s.order else s.order }

/-- A line byte presented to a receiver whose key bits are F and E (R80). -/
def State.presentLine (s : State) (f e : Bool) (b : Byte) : State :=
  State.present { s with rxMode := if f then .frame else .hunt, rxEsc := e } (encode (.lineRx b))

/-- A frame with this content received whole, its closing flag presented: M parses the content in the next step. -/
def State.presentContent (s : State) (c : List Byte) : State :=
  State.present { s with rxMode := .frame, rxEsc := false, rxOvf := false, rxBuf := c ++ fcsBytes c }
    (encode (.lineRx flagByte))

/-- A payload of this one byte submitted to an idle transmitter, nothing held: the next step sends the byte through its
class. -/
def State.presentTxByte (s : State) (b : Byte) : State :=
  State.present { s with txQueue := [], held := [] } (encode (.frTx [b]))

/-- All that a row takes, so that the next step runs it (log 11): an event or host row is a record; a line row needs its
key {F, E, b}, a transmit row a byte to be sent, a content row a good frame. -/
def State.stage (s : State) (i : Instr) : State :=
  match i with
  | .lrxHuntFlag e => s.presentLine false e flagByte
  | .lrxHuntSkip e b => s.presentLine false e b
  | .lrxClose e => s.presentLine true e flagByte
  | .lrxEsc => s.presentLine true false escByte
  | .lrxUnesc b => s.presentLine true true b
  | .lrxData b => s.presentLine true false b
  | .txbFlag => s.presentTxByte flagByte
  | .txbEsc => s.presentTxByte escByte
  | .txbCtrl b => s.presentTxByte b
  | .txbLit b => s.presentTxByte b
  | .acPresent _ => s.presentContent (encode i)
  | .acAbsent _ => s.presentContent (encode i)
  | .pfComp _ _ => s.presentContent (0xFF#8 :: 0x03#8 :: encode i)
  | .pfFull _ _ _ => s.presentContent (0xFF#8 :: 0x03#8 :: encode i)
  | .pfBad _ => s.presentContent (0xFF#8 :: 0x03#8 :: encode i)
  | .reset | .lineRx _ | .txstep | .hostWr _ _ | .hostRd _ | .frTx _ | .muxTx _ _ | .reserved _
  | .wrAccm _ | .wrCtrl _ | .wrStatus _ | .wrProto _ _ | .wrUnmapped _ _
  | .rdAccm | .rdCtrl | .rdStatus | .rdProto _ | .rdUnmapped _ => s.present (encode i)

/-- What `withFetchWord` puts in place for a table word: the staged row, or the word's bytes if it names none. -/
def State.stageWord (s : State) (nbits w : Nat) : State :=
  match decodeTableWord nbits w with
  | some i => s.stage i
  | none => s.present (tableBytes ((nbits + 7) / 8) w)

end Sys2Proof.Machine
end

