-- ==== Sys2Proof/Machine/Step.lean ====
section
/-! DEFINITION. One step: the next transaction (00_scope.md R14). -/

namespace Sys2Proof.Machine

/-- One step of the machine. With nothing to do, nothing changes. -/
def step (s : State) : Host.Outcome State Fault Refusal :=
  match nextEvent s with
  | .run i s' => exec i s'
  | .acceptHeld s' => .next s'.acceptOldest
  | .idle => .next s

/-- `s` with the row of a table word placed so that the very next step runs it (log 11). -/
def State.withFetchWord (s : State) (nbits w : Nat) : State := s.stageWord nbits w

end Sys2Proof.Machine
end

