-- ==== Sys2Proof/Safety.lean ====
section
/-! DEFINITION. The terms claims use: the invariant of 10_state.md R32, runs of several steps, line bytes fed one a step. -/

namespace Sys2Proof.Machine

/-- R32 item 4: `tx_queue` is empty or a suffix of one line form. -/
def State.TxInv (s : State) : Prop :=
  s.txQueue = [] ∨ ∃ x accm acfc, s.txQueue <:+ lineForm x accm acfc

/-- The invariant of R32, with the legal parameters and the table's length (R9, R26), which no step changes. -/
structure State.Inv (s : State) : Prop where
  config : s.config.wf = true
  table : s.proto.length = s.config.nproto
  hunt : s.rxMode = .hunt → s.rxBuf = [] ∧ s.rxEsc = false ∧ s.rxOvf = false
  bound : s.rxBuf.length ≤ s.config.rxBufLen
  full : s.rxOvf = true → s.rxBuf.length = s.config.rxBufLen
  tx : s.TxInv

/-- The receiver right after a flag (41_hdlc_receive.md R127): FRAME, nothing collected. -/
def State.AfterFlag (s : State) : Prop :=
  s.rxMode = .frame ∧ s.rxBuf = [] ∧ s.rxEsc = false ∧ s.rxOvf = false

/-- Records in order: the first stop ends the run. -/
def execAll : List Instr → State → Host.Outcome State Fault Refusal
  | [], s => .next s
  | i :: is, s =>
    match exec i s with
    | .next s' => execAll is s'
    | .fault f => .fault f
    | .refused r => .refused r

/-- `k` steps: the first stop ends the run. -/
def steps : Nat → State → Host.Outcome State Fault Refusal
  | 0, s => .next s
  | k + 1, s =>
    match step s with
    | .next s' => steps k s'
    | .fault f => .fault f
    | .refused r => .refused r

/-- The records of line bytes: `01 b` for each (30_encoding.md R75, R87). -/
def lineRecords (bs : List Byte) : List Byte := bs.flatMap (fun b => [0x01#8, b])

/-- The line bytes an event history shows on `LINE_TX`. -/
def lineTxBytes : List Output → List Byte
  | [] => []
  | .lineTx b :: h => b :: lineTxBytes h
  | _ :: h => lineTxBytes h

/-- The frame contents an event history shows on `FR_RX`. -/
def frRxContents : List Output → List (List Byte)
  | [] => []
  | .frRx c :: h => c :: frRxContents h
  | _ :: h => frRxContents h

/-- Chunks of line bytes presented one after the other (41_hdlc_receive.md R130): each when the one before is taken. -/
def stepChunks : List (List Byte) → State → Host.Outcome State Fault Refusal
  | [], s => .next s
  | c :: cs, s =>
    match steps c.length { s with input := lineRecords c } with
    | .next s' => stepChunks cs s'
    | .fault f => .fault f
    | .refused r => .refused r

/-- The submission an instruction presents, if it presents one. -/
def submitted : Instr → List Submission
  | .frTx x => [.fr x]
  | .muxTx n info => [.mux n info]
  | _ => []

end Sys2Proof.Machine
end

