-- ==== Sys2Proof/Certificates/Slice0/Obligations.lean ====
section
/-! DEFINITION. The statements for the provers, each citing the rule of spec/ it formalises. -/

open Sys2Proof Sys2Proof.Machine

/-! ### Reset, refusal, decode, step -/

/-- R270: RESET, event code 0x00, sets every field of 10_state.md and emits nothing; STATUS then reads 0x00000002. -/
def Obligations.ResetSetsEveryField : Prop :=
  decodeEvent [0x00#8] = .ok .reset [] ∧
  ∀ s : State, exec .reset s = .next { s with
      accm := 0xFFFFFFFF#32, ctrl := { acfc := false, pfc := false }
      proto := List.replicate s.config.nproto { valid := false, num := 0x0000#16 }
      rxMode := .hunt, rxEsc := false, rxOvf := false, rxBuf := [], txQueue := [] } ∧
    ∀ t, exec .reset s = .next t → t.readReg .status = 0x00000002#32

/-- R23 to R31 for `State.reset` and for every choice of the parameters: what the host reads and the hidden fields. -/
def Obligations.StateAfterResetHoldsDocumentedValues : Prop :=
  State.reset = State.resetWith Config.reference ∧
  ∀ c : Config, (State.resetWith c).readReg .accm = 0xFFFFFFFF#32 ∧ (State.resetWith c).readReg .ctrl = 0x00000000#32 ∧
    (State.resetWith c).readReg .status = 0x00000002#32 ∧
    (∀ i, (State.resetWith c).readReg (.proto i) = 0x00000000#32) ∧
    (State.resetWith c).rxMode = .hunt ∧ (State.resetWith c).rxEsc = false ∧ (State.resetWith c).rxOvf = false ∧
    (State.resetWith c).rxBuf = [] ∧ (State.resetWith c).txQueue = []

/-- R271: RESET in the middle of traffic. The bytes left are never sent, a frame partly received is lost without a DISCARD
record, bytes up to a flag are ignored, and the next submission, a held one first, takes the reset register values. That a held
one is the step after RESET when `order` says nothing else is the model's (log 4). -/
def Obligations.ResetCutsTrafficOff : Prop :=
  ∀ s t : State, exec .reset s = .next t →
    t.history = s.history ∧
    exec .txstep t = .next t ∧
    (∀ y : List Byte, flagByte ∉ y → execAll (y.map .lineRx) t = .next t) ∧
    (s.held = [] →
      (∀ x, exec (.frTx x) t = .next { t with txQueue := lineForm x 0xFFFFFFFF#32 false }) ∧
      (∀ n info, exec (.muxTx n info) t = .next { t with
        txQueue := lineForm ([n.extractLsb' 8 8, n.extractLsb' 0 8] ++ info) 0xFFFFFFFF#32 false })) ∧
    (∀ sub rest, s.held = sub :: rest → s.order = [] →
      step t = .next { t with held := rest, txQueue := lineForm (sub.payload false) 0xFFFFFFFF#32 false })

/-- R82, R244: a reserved code and a truncated record are refused by name, as instructions and as what a step fetches (a step
fetches when no held submission is to be accepted first, log 4). -/
def Obligations.RefusedRecordsTakeNoStep : Prop :=
  (∀ (c : Byte) s, 7 ≤ c.toNat → exec (.reserved (.reservedCode c)) s = .refused (.reservedEventCode c)) ∧
  (∀ r s, recordCut r = true → exec (.reserved (.truncated r)) s = .refused (.truncatedRecord r)) ∧
  (∀ (s : State) c rest, s.txQueue ≠ [] ∨ s.held = [] → s.input = c :: rest → 7 ≤ c.toNat →
    step s = .refused (.reservedEventCode c)) ∧
  (∀ s : State, s.txQueue ≠ [] ∨ s.held = [] → recordCut s.input = true →
    step s = .refused (.truncatedRecord s.input))

/-- Decode and encode agree: every well-formed row, at every value its fields admit, is read back from its bytes. -/
def Obligations.DecodeInvertsEncode : Prop :=
  ∀ nproto (i : Instr), i.wf nproto = true → decode nproto i.format (encode i) = .ok i []

/-- An event record is read back whatever follows it in the stream, and no byte of what follows is lost. -/
def Obligations.EventRecordsDelimitThemselves : Prop :=
  ∀ nproto (i : Instr) (rest : List Byte), i.format = .event → i.wf nproto = true →
    (∀ r, i ≠ .reserved (.truncated r)) → decodeEvent (encode i ++ rest) = .ok i rest

/-- R75, R80, R81, R83, R79: words written out from the spec's encodings decode to their rows. -/
def Obligations.SpecWordsDecodeToTheirRows : Prop :=
  decodeEvent [0x03#8, 0x40#8, 0x80#8, 0x00#8, 0xC0#8, 0x21#8] = .ok (.hostWr 0x40#8 0x8000C021#32) [] ∧
  decodeEvent [0x06#8, 0x00#8, 0x21#8, 0x00#8, 0x04#8, 0x45#8, 0x00#8, 0x7E#8, 0x11#8] =
    .ok (.muxTx 0x0021#16 [0x45#8, 0x00#8, 0x7E#8, 0x11#8]) [] ∧
  decodeEvent [0x05#8, 0x00#8, 0x03#8, 0x55#8, 0xAA#8] =
    .ok (.reserved (.truncated [0x05#8, 0x00#8, 0x03#8, 0x55#8, 0xAA#8])) [] ∧
  decode 4 .lineRx [0x02#8, 0x7D#8] = .ok .lrxEsc [] ∧
  decode 4 .txByte [0x1F#8] = .ok (.txbCtrl 0x1F#8) [] ∧
  decode 4 .contentAc [0xFF#8, 0x03#8, 0x21#8] = .ok (.acPresent [0x21#8]) [] ∧
  decode 4 .contentPf [0xC0#8, 0x21#8, 0x09#8] = .ok (.pfFull 0xC0#8 0x21#8 [0x09#8]) [] ∧
  decode 4 .hostWr [0x03#8, 0x50#8, 0x80#8, 0x00#8, 0x00#8, 0x21#8] = .ok (.wrUnmapped 0x50#8 0x80000021#32) [] ∧
  decode 4 .hostRd [0x04#8, 0x4C#8] = .ok (.rdProto 0x3#4) []

/-- A step runs the instruction its record decodes to, on the state with the record taken from `input`: when no held submission
can be accepted, and when one can but `order` gives the step to the record (log 4). -/
def Obligations.StepRunsTheDecodedRecord : Prop :=
  ∀ (s : State) i rest, decodeEvent s.input = .ok i rest →
    (s.txQueue ≠ [] ∨ s.held = [] → step s = exec i { s with input := rest }) ∧
    (∀ o, s.txQueue = [] → s.held ≠ [] → s.order = .record :: o →
      step s = exec i { s with input := rest, order := o })

/-- R79: an offset runs the row it selects. -/
def Obligations.OffsetSelectsHostRow : Prop :=
  ∀ (s : State) (d : Word32),
    (∃ t, exec (.hostWr 0x00#8 d) s = .next t ∧ exec (.wrAccm d) s = .next t) ∧
    (∃ t, exec (.hostWr 0x04#8 d) s = .next t ∧ exec (.wrCtrl d) s = .next t) ∧
    (∃ t, exec (.hostWr 0x08#8 d) s = .next t ∧ exec (.wrStatus d) s = .next t) ∧
    (∃ t, exec (.hostRd 0x00#8) s = .next t ∧ exec .rdAccm s = .next t) ∧
    (∃ t, exec (.hostRd 0x04#8) s = .next t ∧ exec .rdCtrl s = .next t) ∧
    (∃ t, exec (.hostRd 0x08#8) s = .next t ∧ exec .rdStatus s = .next t) ∧
    (∀ off : Byte, off.extractLsb' 6 2 = 0b01#2 → off.extractLsb' 0 2 = 0b00#2 →
      (off.extractLsb' 2 4).toNat < s.config.nproto →
      (∃ t, exec (.hostWr off d) s = .next t ∧ exec (.wrProto (off.extractLsb' 2 4) d) s = .next t) ∧
      (∃ t, exec (.hostRd off) s = .next t ∧ exec (.rdProto (off.extractLsb' 2 4)) s = .next t)) ∧
    (∀ off : Byte, off ≠ 0x00#8 → off ≠ 0x04#8 → off ≠ 0x08#8 →
      ¬ (off.extractLsb' 6 2 = 0b01#2 ∧ off.extractLsb' 0 2 = 0b00#2 ∧ (off.extractLsb' 2 4).toNat < s.config.nproto) →
      (∃ t, exec (.hostWr off d) s = .next t ∧ exec (.wrUnmapped off d) s = .next t) ∧
      (∃ t, exec (.hostRd off) s = .next t ∧ exec (.rdUnmapped off) s = .next t))

/-- R53: an access at an offset with `off[1:0] ≠ 0` writes nothing and reads 0. -/
def Obligations.MisalignedAccessIsIgnored : Prop :=
  ∀ (s : State) (off : Byte) (d : Word32), off.extractLsb' 0 2 ≠ 0b00#2 →
    exec (.hostWr off d) s = .next s ∧
    exec (.hostRd off) s = .next { s with history := s.history ++ [.hostRd 0x00000000#32] }

/-! ### Host registers -/

/-- R211 to R215: what each write writes, as the event HOST_WR at its offset and as its row; everything else, and all of it
for STATUS and unmapped offsets, is unchanged. -/
def Obligations.HostWriteRowsWriteTheirFields : Prop :=
  ∀ (s : State) (d : Word32),
    (exec (.hostWr 0x00#8 d) s = .next { s with accm := d } ∧ exec (.wrAccm d) s = .next { s with accm := d }) ∧
    (exec (.hostWr 0x04#8 d) s = .next { s with ctrl := { acfc := d.getLsbD 0, pfc := d.getLsbD 1 } } ∧
      exec (.wrCtrl d) s = .next { s with ctrl := { acfc := d.getLsbD 0, pfc := d.getLsbD 1 } }) ∧
    (exec (.hostWr 0x08#8 d) s = .next s ∧ exec (.wrStatus d) s = .next s) ∧
    (∀ (i : BitVec 4) (off : Byte), i.toNat < s.config.nproto → off.toNat = 0x40 + 4 * i.toNat →
      exec (.hostWr off d) s = .next { s with
        proto := s.proto.set i.toNat { valid := d.getLsbD 31, num := d.extractLsb' 0 16 } } ∧
      exec (.wrProto i d) s = .next { s with
        proto := s.proto.set i.toNat { valid := d.getLsbD 31, num := d.extractLsb' 0 16 } }) ∧
    (∀ off : Byte, off ≠ 0x00#8 → off ≠ 0x04#8 → off ≠ 0x08#8 →
      (∀ i, i < s.config.nproto → off.toNat ≠ 0x40 + 4 * i) →
      exec (.hostWr off d) s = .next s ∧ exec (.wrUnmapped off d) s = .next s)

/-- R216 to R220: what each read returns, as the event HOST_RD at its offset and as its row; no read changes anything but the
record of what it returned. -/
def Obligations.HostReadRowsReturnTheirRegisters : Prop :=
  ∀ s : State,
    (∀ i ∈ [Instr.hostRd 0x00#8, .rdAccm], exec i s = .next { s with history := s.history ++ [.hostRd s.accm] }) ∧
    (∀ i ∈ [Instr.hostRd 0x04#8, .rdCtrl], exec i s = .next { s with
      history := s.history ++ [.hostRd (0#30 ++ BitVec.ofBool s.ctrl.pfc ++ BitVec.ofBool s.ctrl.acfc)] }) ∧
    (∀ i ∈ [Instr.hostRd 0x08#8, .rdStatus], exec i s = .next { s with
      history := s.history ++ [.hostRd (0#30 ++ BitVec.ofBool (decide (s.rxMode = .hunt))
        ++ BitVec.ofBool (decide (s.txQueue ≠ [])))] }) ∧
    (∀ (k : BitVec 4) (off : Byte) e, k.toNat < s.config.nproto → off.toNat = 0x40 + 4 * k.toNat →
      s.proto[k.toNat]? = some e → ∀ i ∈ [Instr.hostRd off, .rdProto k], exec i s = .next { s with
        history := s.history ++ [.hostRd (BitVec.ofBool e.valid ++ 0#15 ++ e.num)] }) ∧
    (∀ off : Byte, off ≠ 0x00#8 → off ≠ 0x04#8 → off ≠ 0x08#8 →
      (∀ i, i < s.config.nproto → off.toNat ≠ 0x40 + 4 * i) → ∀ i ∈ [Instr.hostRd off, .rdUnmapped off],
      exec i s = .next { s with history := s.history ++ [.hostRd 0x00000000#32] })

/-- The model's own choice (log 20, and log 18 for the index): a host row or RESERVED, as an instruction with a field that no
row of the table has there, does what the row does without a look at the field. -/
def Obligations.HostRowsDoNotTestTheirFieldAgain : Prop :=
  ∀ (s : State) (d : Word32),
    (∀ off, exec (.wrUnmapped off d) s = .next s) ∧
    (∀ off, exec (.rdUnmapped off) s = .next { s with history := s.history ++ [.hostRd 0x00000000#32] }) ∧
    (∀ i : BitVec 4, s.config.nproto ≤ i.toNat → exec (.wrProto i d) s = .next s ∧
      exec (.rdProto i) s = .next { s with history := s.history ++ [.hostRd 0x00000000#32] }) ∧
    (∀ c, exec (.reserved (.reservedCode c)) s = .refused (.reservedEventCode c)) ∧
    (∀ r, exec (.reserved (.truncated r)) s = .refused (.truncatedRecord r))

/-- A read after a write: the written register returns the written value in its writable bits, every other one what it
returned before (45_host_interface.md). -/
def Obligations.HostReadAfterWrite : Prop :=
  ∀ (s t : State) (off off' : Byte) (d : Word32), s.proto.length = s.config.nproto → exec (.hostWr off d) s = .next t →
    t.readReg (regSelect s.config.nproto off') =
      if off' = off then
        match regSelect s.config.nproto off with
        | .accm => d
        | .ctrl => d &&& 0x00000003#32
        | .status => s.readReg .status
        | .proto _ => d &&& 0x8000FFFF#32
        | .unmapped => 0x00000000#32
      else s.readReg (regSelect s.config.nproto off')

/-- R54: a register write changes exactly its register (no receive or transmit field), a read changes no state, and a write of
the value a register already holds changes nothing. -/
def Obligations.HostAccessesHaveNoOtherSideEffect : Prop :=
  (∀ (s t : State) off d, exec (.hostWr off d) s = .next t →
    t = match regSelect s.config.nproto off with
      | .accm => { s with accm := d }
      | .ctrl => { s with ctrl := { acfc := d.getLsbD 0, pfc := d.getLsbD 1 } }
      | .status => s
      | .proto i => { s with proto := s.proto.set i.toNat { valid := d.getLsbD 31, num := d.extractLsb' 0 16 } }
      | .unmapped => s) ∧
  (∀ (s t : State) off, exec (.hostRd off) s = .next t → t = { s with history := t.history }) ∧
  (∀ s : State, s.proto.length = s.config.nproto → ∀ off,
    exec (.hostWr off (s.readReg (regSelect s.config.nproto off))) s = .next s) ∧
  (∀ (i : Instr) (s t : State), i.format = .event → exec i s = .next t →
    t.rxMode ≠ s.rxMode ∨ t.rxEsc ≠ s.rxEsc ∨ t.rxOvf ≠ s.rxOvf ∨ t.rxBuf ≠ s.rxBuf ∨ t.txQueue ≠ s.txQueue →
    (∃ b, i = .lineRx b) ∨ (∃ x, i = .frTx x) ∨ (∃ n info, i = .muxTx n info) ∨ i = .txstep ∨ i = .reset)

/-- Whole machine: only RESET and a host write change a register, and nothing changes the parameters. -/
def Obligations.OnlyResetAndHostWritesChangeRegisters : Prop :=
  ∀ (i : Instr) (s t : State), exec i s = .next t →
    t.config = s.config ∧
    ((i ≠ .reset ∧ (∀ off d, i ≠ .hostWr off d) ∧ i.format ≠ .hostWr) →
      t.accm = s.accm ∧ t.ctrl = s.ctrl ∧ t.proto = s.proto)

/-- R51: only offsets matter; where the platform puts the register block changes no step. -/
def Obligations.RegisterBaseIsNotObservable : Prop :=
  ∀ (s t : State) (base : Nat), step s = .next t →
    step { s with config := { s.config with regBase := base } } =
      .next { t with config := { t.config with regBase := base } }

/-! ### Byte-stuffing and CRC -/

/-- R150, R151, R81: the four classes of a byte to be sent, what each joins to the line form, and that no other state
changes. The rows' place as instructions is the model's (log 7), and so is TXB.LIT of a byte outside its class (log 20). -/
def Obligations.TransmitByteRowsStuff : Prop :=
  ∀ s : State,
    exec .txbFlag s = .next { s with txQueue := s.txQueue ++ [0x7D#8, 0x5E#8] } ∧
    exec .txbEsc s = .next { s with txQueue := s.txQueue ++ [0x7D#8, 0x5D#8] } ∧
    (∀ b : Byte, b.toNat < 0x20 → exec (.txbCtrl b) s = .next { s with
      txQueue := s.txQueue ++ if s.accm.getLsbD b.toNat then [0x7D#8, b ^^^ 0x20#8] else [b] }) ∧
    (∀ b, exec (.txbLit b) s = .next { s with txQueue := s.txQueue ++ [b] })

/-- The line form FR_TX queues is an opening flag, the rows of its content and FCS run in order, and a closing flag. -/
def Obligations.TransmitRowsBuildTheLineForm : Prop :=
  ∀ (s : State) (x : List Byte), s.txQueue = [0x7E#8] →
    ∃ t, execAll ((txContent x s.ctrl.acfc ++ fcsBytes (txContent x s.ctrl.acfc)).map txRow) s = .next t ∧
      t = { s with txQueue := t.txQueue } ∧ t.txQueue ++ [0x7E#8] = lineForm x s.accm s.ctrl.acfc

/-- R155: the laws of stuffing. -/
def Obligations.StuffingLaws : Prop :=
  ∀ (x : List Byte) (accm : Word32),
    flagByte ∉ stuff accm x ∧
    (∀ u v, stuff accm x = u ++ escByte :: v → ∃ b w, v = b :: w ∧ b ≠ escByte) ∧
    unstuff (stuff accm x) = (x, false) ∧
    (stuff accm x).length = x.length + x.countP (esc accm) ∧
    (∀ b, esc 0x00000000#32 b = true ↔ b = flagByte ∨ b = escByte)

/-- R165 to R168: the CRC register, the FCS and its bytes. -/
def Obligations.CrcFollowsItsRules : Prop :=
  (∀ r : Word16, r.getLsbD 0 = true → crcShift r = (r >>> 1) ^^^ 0x8408#16) ∧
  (∀ r : Word16, r.getLsbD 0 = false → crcShift r = r >>> 1) ∧
  (∀ (r : Word16) (b : Byte), crcStep r b = crcShift (crcShift (crcShift (crcShift (crcShift (crcShift (crcShift (crcShift
    (r ^^^ b.setWidth 16))))))))) ∧
  crcReg [] = 0xFFFF#16 ∧
  (∀ x b, crcReg (x ++ [b]) = crcStep (crcReg x) b) ∧
  (∀ x, fcs16 x = crcReg x ^^^ 0xFFFF#16) ∧
  (∀ x, fcsBytes x = [(fcs16 x).extractLsb' 0 8, (fcs16 x).extractLsb' 8 8])

/-- R171: the check values. -/
def Obligations.CrcCheckValues : Prop :=
  crcReg [] = 0xFFFF#16 ∧ fcs16 [] = 0x0000#16 ∧ fcsBytes [] = [0x00#8, 0x00#8] ∧
  crcReg [0x31#8, 0x32#8, 0x33#8, 0x34#8, 0x35#8, 0x36#8, 0x37#8, 0x38#8, 0x39#8] = 0x6F91#16 ∧
  fcs16 [0x31#8, 0x32#8, 0x33#8, 0x34#8, 0x35#8, 0x36#8, 0x37#8, 0x38#8, 0x39#8] = 0x906E#16 ∧
  fcsBytes [0x31#8, 0x32#8, 0x33#8, 0x34#8, 0x35#8, 0x36#8, 0x37#8, 0x38#8, 0x39#8] = [0x6E#8, 0x90#8] ∧
  crcReg [0xFF#8, 0x03#8] = 0x3DE3#16 ∧ fcs16 [0xFF#8, 0x03#8] = 0xC21C#16 ∧
  fcsBytes [0xFF#8, 0x03#8] = [0x1C#8, 0xC2#8] ∧
  crcReg [0xFF#8, 0x03#8, 0x55#8, 0xAA#8] = 0x8E88#16 ∧ fcs16 [0xFF#8, 0x03#8, 0x55#8, 0xAA#8] = 0x7177#16 ∧
  fcsBytes [0xFF#8, 0x03#8, 0x55#8, 0xAA#8] = [0x77#8, 0x71#8] ∧
  crcReg [0xFF#8, 0x03#8, 0x01#8] = 0xC421#16 ∧ fcs16 [0xFF#8, 0x03#8, 0x01#8] = 0x3BDE#16 ∧
  fcsBytes [0xFF#8, 0x03#8, 0x01#8] = [0xDE#8, 0x3B#8] ∧
  crcReg [0x55#8, 0xAA#8] = 0x57A7#16 ∧ fcs16 [0x55#8, 0xAA#8] = 0xA858#16 ∧
  fcsBytes [0x55#8, 0xAA#8] = [0x58#8, 0xA8#8]

/-- The laws of the CRC that 43_crc16.md derives: linear over GF(2), each shift invertible, the last byte always told. -/
def Obligations.CrcIsLinearAndTellsTheLastByte : Prop :=
  (∀ r r' b b', crcStep (r ^^^ r') (b ^^^ b') = crcStep r b ^^^ crcStep r' b') ∧
  Function.Bijective crcShift ∧
  (∀ r b b', b ≠ b' → crcStep r b ≠ crcStep r b') ∧
  (∀ x b b', b ≠ b' → fcs16 (x ++ [b]) ≠ fcs16 (x ++ [b']))

/-- The two forms of the verifier agree on every input (43_crc16.md, 93 I11): comparison, and residue 0xF0B8 over the content
and its FCS bytes, low byte first. -/
def Obligations.ResidueFormEqualsComparison : Prop :=
  ∀ (c : List Byte) (r : Word16),
    (fcsOk c r = true ↔ fcs16 c = r) ∧
    (fcsOk c r = true ↔ crcReg (c ++ [r.extractLsb' 0 8, r.extractLsb' 8 8]) = 0xF0B8#16)

/-- R169: the FCS covers exactly the un-stuffed content: what stands between the flags un-stuffs to the content and its FCS. -/
def Obligations.FcsCoversTheUnstuffedContent : Prop :=
  ∀ (x : List Byte) (accm : Word32) (acfc : Bool), ∃ m, lineForm x accm acfc = [flagByte] ++ m ++ [flagByte] ∧
    unstuff m = ((if acfc then x else 0xFF#8 :: 0x03#8 :: x)
      ++ fcsBytes (if acfc then x else 0xFF#8 :: 0x03#8 :: x), false)

/-! ### Transmit -/

/-- After R102: an idle transmitter accepts a payload; the whole line form is queued, made with the registers of that step, and
nothing else changes. The port keeps its sender's order (R62): while an older payload is held it is that one, and the new one
holds behind the others (log 3). -/
def Obligations.IdleTransmitterAcceptsPayload : Prop :=
  ∀ (s : State) (x : List Byte), s.txQueue = [] →
    ((∀ y, .fr y ∉ s.held) → exec (.frTx x) s = .next { s with txQueue := lineForm x s.accm s.ctrl.acfc }) ∧
    (∀ before y after, s.held = before ++ .fr y :: after → (∀ z, .fr z ∉ before) →
      exec (.frTx x) s = .next { s with
        txQueue := lineForm y s.accm s.ctrl.acfc, held := before ++ after ++ [.fr x] }) ∧
    (∀ t, exec (.frTx x) s = .next t → t.txBusy = true)

/-- After R181 to R183: an idle transmitter accepts any number; the payload is the protocol field, then the information. The port
keeps its sender's order (R62), as FR_TX does (log 3). -/
def Obligations.IdleTransmitterAcceptsInformation : Prop :=
  ∀ (s : State) (n : Word16) (info : List Byte), s.txQueue = [] →
    ((∀ m i, .mux m i ∉ s.held) → exec (.muxTx n info) s = .next { s with
      txQueue := lineForm ((if s.ctrl.pfc = true ∧ n.toNat ≤ 0xFE ∧ n.getLsbD 0 = true then [n.extractLsb' 0 8]
        else [n.extractLsb' 8 8, n.extractLsb' 0 8]) ++ info) s.accm s.ctrl.acfc }) ∧
    (∀ before m i after, s.held = before ++ .mux m i :: after → (∀ m' i', .mux m' i' ∉ before) →
      exec (.muxTx n info) s = .next { s with
        txQueue := lineForm (protocolField m s.ctrl.pfc ++ i) s.accm s.ctrl.acfc
        held := before ++ after ++ [.mux n info] }) ∧
    (∀ t, exec (.muxTx n info) s = .next t → t.txBusy = true)

/-- R245: while the queue is not empty a submission holds: nothing of the block changes and nothing is emitted. -/
def Obligations.BusyTransmitterHoldsSubmission : Prop :=
  ∀ (s : State), s.txQueue ≠ [] →
    (∀ x, ∃ t, exec (.frTx x) s = .next t ∧ t = { s with held := t.held }) ∧
    (∀ n info, ∃ t, exec (.muxTx n info) s = .next t ∧ t = { s with held := t.held })

/-- R103: TXSTEP emits the first byte of the queue; with an empty queue it changes nothing and emits nothing. -/
def Obligations.TxstepEmitsOneByte : Prop :=
  ∀ (s : State),
    (s.txQueue = [] → exec .txstep s = .next s) ∧
    (∀ b q, s.txQueue = b :: q →
      exec .txstep s = .next { s with txQueue := q, history := s.history ++ [.lineTx b] })

/-- R87 (DRAIN), R31: exactly `len(tx_queue)` transmit steps empty the queue and emit its bytes in order. -/
def Obligations.DrainEmitsTheQueueInOrder : Prop :=
  ∀ s : State, execAll (List.replicate s.txQueue.length .txstep) s =
    .next { s with txQueue := [], history := s.history ++ s.txQueue.map .lineTx }

/-- R63 (a), R274: whatever the host writes and the line brings while a frame is in transmission, the bytes sent and still to
be sent stay those fixed at its acceptance. -/
def Obligations.FrameInTransmissionKeepsItsBytes : Prop :=
  ∀ (is : List Instr) (s t : State),
    (∀ i ∈ is, i = .txstep ∨ (∃ b, i = .lineRx b) ∨ (∃ off d, i = .hostWr off d) ∨ (∃ off, i = .hostRd off)) →
    execAll is s = .next t →
    lineTxBytes t.history ++ t.txQueue = lineTxBytes s.history ++ s.txQueue

/-- R104: the line form of any payload under any registers. -/
def Obligations.LineFormShape : Prop :=
  ∀ (x : List Byte) (accm : Word32) (acfc : Bool),
    (∃ m, lineForm x accm acfc = flagByte :: (m ++ [flagByte]) ∧ flagByte ∉ m) ∧
    (∀ u v, lineForm x accm acfc = u ++ escByte :: v → ∃ b w, v = b :: w ∧ b ≠ flagByte ∧ b ≠ escByte) ∧
    (lineForm x accm acfc).length = 2 + (txContent x acfc ++ fcsBytes (txContent x acfc)).length
      + (txContent x acfc ++ fcsBytes (txContent x acfc)).countP (esc accm) ∧
    2 + (txContent x acfc).length + 2 ≤ (lineForm x accm acfc).length ∧
    (lineForm x accm acfc).length ≤ 2 + 2 * ((txContent x acfc).length + 2) ∧
    (accm.getLsbD 0 = false → lineForm [] accm true = [0x7E#8, 0x00#8, 0x00#8, 0x7E#8])

/-- R107: the source's worked examples, as what FR_TX queues from reset registers. -/
def Obligations.SourceExampleFrames : Prop :=
  (∃ t, exec (.frTx [0x55#8, 0xAA#8]) State.reset = .next t ∧
    t.txQueue = [0x7E#8, 0xFF#8, 0x7D#8, 0x23#8, 0x55#8, 0xAA#8, 0x77#8, 0x71#8, 0x7E#8]) ∧
  (∃ t, exec (.frTx [0x01#8]) State.reset = .next t ∧
    t.txQueue = [0x7E#8, 0xFF#8, 0x7D#8, 0x23#8, 0x7D#8, 0x21#8, 0xDE#8, 0x3B#8, 0x7E#8])

/-- R245: a hold is lifted only by TXSTEP or RESET: nothing else changes a queue that is not empty, but for the rows of tx_byte,
whose place as instructions is the model's (log 7), and those leave it not empty. -/
def Obligations.HoldIsLiftedOnlyByTxstepOrReset : Prop :=
  ∀ (i : Instr) (s t : State), exec i s = .next t → s.txQueue ≠ [] → t.txQueue ≠ s.txQueue →
    i = .txstep ∨ i = .reset ∨ (i.format = .txByte ∧ t.txQueue ≠ [])

/-- The model's own choice (log 3): a submission that finds the transmitter busy is kept behind the older ones, each as often as
it was presented, and no instruction drops one or changes their order while the transmitter is busy. -/
def Obligations.HeldSubmissionIsKept : Prop :=
  ∀ s : State, s.txQueue ≠ [] →
    (∀ x, exec (.frTx x) s = .next { s with held := s.held ++ [.fr x] }) ∧
    (∀ n info, exec (.muxTx n info) s = .next { s with held := s.held ++ [.mux n info] }) ∧
    (∀ i t, exec i s = .next t → t.held = s.held ++ submitted i)

/-- R102: a held submission is accepted at the first step at which the queue is empty, before the record that waits, with the
registers of that step; the younger ones stay. That `order` can give the step to the record is the model's (log 4). -/
def Obligations.HeldSubmissionIsAcceptedAtFirstIdleStep : Prop :=
  ∀ (s : State) (sub : Submission) (rest : List Submission), s.txQueue = [] → s.held = sub :: rest →
    (s.order = [] ∨ s.input = [] → step s = .next { s with
      held := rest, txQueue := lineForm (sub.payload s.ctrl.pfc) s.accm s.ctrl.acfc }) ∧
    (∀ o, s.order = .submission :: o → s.input ≠ [] → step s = .next { s with
      held := rest, txQueue := lineForm (sub.payload s.ctrl.pfc) s.accm s.ctrl.acfc, order := o })

/-- R62 for the two ports that can hold: on each port, what is accepted and then what is still held is what was held and then
what is presented, so nothing overtakes, is lost or is doubled; over an instruction, and over a step. What is accepted is
queued whole, by an idle transmitter. -/
def Obligations.EachPortKeepsItsOrder : Prop :=
  (∀ (p : TxPort) (i : Instr) (s t : State), exec i s = .next t → ∃ accepted : List Submission,
    accepted ++ t.held.filter (onPort p) = s.held.filter (onPort p) ++ (submitted i).filter (onPort p) ∧
    (accepted = [] ∨ ∃ a, accepted = [a] ∧ s.txQueue = [] ∧
      t.txQueue = lineForm (a.payload s.ctrl.pfc) s.accm s.ctrl.acfc)) ∧
  (∀ (p : TxPort) (s t : State), step s = .next t → ∃ accepted presented : List Submission,
    accepted ++ t.held.filter (onPort p) = s.held.filter (onPort p) ++ presented ∧
    (accepted = [] ∨ ∃ a, accepted = [a] ∧ s.txQueue = [] ∧
      t.txQueue = lineForm (a.payload s.ctrl.pfc) s.accm s.ctrl.acfc) ∧
    (presented = [] ∧ t.input = s.input ∨
      ∃ i rest, decodeEvent s.input = .ok i rest ∧ t.input = rest ∧ presented = (submitted i).filter (onPort p)))

/-- The model's own choice (log 4), after R279 and R245: with nothing presented, the engine empties the queue in order in
`len(tx_queue)` steps and the next step accepts the oldest kept submission, with the registers of that step. -/
def Obligations.HeldSubmissionIsAcceptedAfterDrain : Prop :=
  ∀ (s : State) (sub : Submission) (rest : List Submission), s.input = [] → s.held = sub :: rest →
    steps (s.txQueue.length + 1) s = .next { s with
      txQueue := lineForm (sub.payload s.ctrl.pfc) s.accm s.ctrl.acfc
      held := rest
      history := s.history ++ s.txQueue.map .lineTx }

/-! ### Receive -/

/-- R80: LINE_RX runs the first row that its key {F, E, b} matches. -/
def Obligations.LineByteRunsItsRow : Prop :=
  ∀ (s : State) (b : Byte) (e : Bool),
    (s.rxMode = .hunt → b = 0x7E#8 → ∃ t, exec (.lineRx b) s = .next t ∧ exec (.lrxHuntFlag e) s = .next t) ∧
    (s.rxMode = .hunt → b ≠ 0x7E#8 → ∃ t, exec (.lineRx b) s = .next t ∧ exec (.lrxHuntSkip e b) s = .next t) ∧
    (s.rxMode = .frame → b = 0x7E#8 → ∃ t, exec (.lineRx b) s = .next t ∧ exec (.lrxClose e) s = .next t) ∧
    (s.rxMode = .frame → s.rxEsc = false → b = 0x7D#8 →
      ∃ t, exec (.lineRx b) s = .next t ∧ exec .lrxEsc s = .next t) ∧
    (s.rxMode = .frame → s.rxEsc = true → b ≠ 0x7E#8 →
      ∃ t, exec (.lineRx b) s = .next t ∧ exec (.lrxUnesc b) s = .next t) ∧
    (s.rxMode = .frame → s.rxEsc = false → b ≠ 0x7E#8 → b ≠ 0x7D#8 →
      ∃ t, exec (.lineRx b) s = .next t ∧ exec (.lrxData b) s = .next t)

/-- R121, R122, R123: the line bytes that store no byte, as LINE_RX and as the row its key selects. -/
def Obligations.FlagSkipAndEscapeRows : Prop :=
  ∀ (s : State) (b : Byte),
    (s.rxMode = .hunt → ∀ i ∈ [Instr.lineRx 0x7E#8, .lrxHuntFlag s.rxEsc],
      exec i s = .next { s with rxMode := .frame, rxBuf := [], rxEsc := false, rxOvf := false }) ∧
    (s.rxMode = .hunt → b ≠ 0x7E#8 → ∀ i ∈ [Instr.lineRx b, .lrxHuntSkip s.rxEsc b], exec i s = .next s) ∧
    (s.rxMode = .frame → s.rxEsc = false → ∀ i ∈ [Instr.lineRx 0x7D#8, .lrxEsc],
      exec i s = .next { s with rxEsc := true })

/-- R124, R125, R126: the line bytes that store a byte, as LINE_RX and as the row its key selects, and what a full buffer
does. -/
def Obligations.UnescapedAndLiteralBytesAreStored : Prop :=
  ∀ (s : State) (b : Byte), s.rxMode = .frame → b ≠ 0x7E#8 →
    (s.rxEsc = true → ∀ i ∈ [Instr.lineRx b, .lrxUnesc b],
      (s.rxBuf.length < s.config.rxBufLen →
        exec i s = .next { s with rxEsc := false, rxBuf := s.rxBuf ++ [b ^^^ 0x20#8] }) ∧
      (s.config.rxBufLen ≤ s.rxBuf.length → exec i s = .next { s with rxEsc := false, rxOvf := true })) ∧
    (s.rxEsc = false → b ≠ 0x7D#8 → ∀ i ∈ [Instr.lineRx b, .lrxData b],
      (s.rxBuf.length < s.config.rxBufLen → exec i s = .next { s with rxBuf := s.rxBuf ++ [b] }) ∧
      (s.config.rxBufLen ≤ s.rxBuf.length → exec i s = .next { s with rxOvf := true }))

/-- R127, R128, R129: a closing flag, as LINE_RX in FRAME and as the row its key selects; the first check that applies decides,
and the receiver is ready for the next frame, in FRAME still. -/
def Obligations.ClosingFlagDecidesInOrder : Prop :=
  ∀ s : State, s.rxMode = .frame → ∃ out,
    (∀ i ∈ [Instr.lineRx 0x7E#8, .lrxClose s.rxEsc],
      exec i s = .next { s with rxBuf := [], rxEsc := false, rxOvf := false, history := s.history ++ out }) ∧
    (s.rxEsc = true → out = [.discard .abort]) ∧
    (s.rxEsc = false → s.rxOvf = true → out = [.discard .overflow]) ∧
    (s.rxEsc = false → s.rxOvf = false → s.rxBuf = [] → out = [.discard .empty]) ∧
    (∀ v, s.rxEsc = false → s.rxOvf = false → s.rxBuf = [v] → out = [.discard .runt]) ∧
    (∀ c lo hi, s.rxEsc = false → s.rxOvf = false → s.rxBuf = c ++ [lo, hi] → fcs16 c = hi ++ lo →
      out = [.frRx c, demux s.ctrl s.proto c]) ∧
    (∀ c lo hi, s.rxEsc = false → s.rxOvf = false → s.rxBuf = c ++ [lo, hi] → fcs16 c ≠ hi ++ lo →
      out = [.discard .badFcs])

/-- The model's own choice (logs 6 and 20): a line_rx row, as an instruction, does its rule's pseudocode from every state, also where
its key does not describe the state, and whatever its bit E and its byte (log 20). -/
def Obligations.LineRowsRunFromEveryState : Prop :=
  ∀ (s : State) (b : Byte) (e : Bool),
    exec (.lrxHuntFlag e) s = .next { s with rxMode := .frame, rxBuf := [], rxEsc := false, rxOvf := false } ∧
    exec (.lrxHuntSkip e b) s = .next s ∧
    exec (.lrxClose e) s = .next { s with
      rxBuf := [], rxEsc := false, rxOvf := false
      history := s.history ++ closeOutputs s.ctrl s.proto s.rxEsc s.rxOvf s.rxBuf } ∧
    exec .lrxEsc s = .next { s with rxEsc := true } ∧
    (s.rxBuf.length < s.config.rxBufLen →
      exec (.lrxUnesc b) s = .next { s with rxEsc := false, rxBuf := s.rxBuf ++ [b ^^^ 0x20#8] } ∧
      exec (.lrxData b) s = .next { s with rxBuf := s.rxBuf ++ [b] }) ∧
    (s.config.rxBufLen ≤ s.rxBuf.length →
      exec (.lrxUnesc b) s = .next { s with rxEsc := false, rxOvf := true } ∧
      exec (.lrxData b) s = .next { s with rxOvf := true })

/-- A good frame is handed up as it arrived, then, in the same step, M does what the content's row does (after R129, R186). That
LRX.CLOSE runs from every state is the model's choice (log 6), and so is that a content row is an instruction (log 8). -/
def Obligations.GoodFrameRunsItsContentRow : Prop :=
  ∀ (s : State) (e : Bool) (c : List Byte), s.rxEsc = false → s.rxOvf = false → s.rxBuf = c ++ fcsBytes c →
    exec (.lrxClose e) s =
      exec (contentRow c) { s with rxBuf := [], rxEsc := false, rxOvf := false, history := s.history ++ [.frRx c] }

/-- R132: the receive path does not consult ACCM, and in a frame an unescaped byte 0x00..0x1F is data whatever ACCM holds. -/
def Obligations.ReceivePathIgnoresAccm : Prop :=
  (∀ (bs : List Byte) (s t : State) (a : Word32), execAll (bs.map .lineRx) s = .next t →
    execAll (bs.map .lineRx) { s with accm := a } = .next { t with accm := a }) ∧
  (∀ (s : State) (b : Byte) (a : Word32), s.rxMode = .frame → s.rxEsc = false → b.toNat < 0x20 →
    s.rxBuf.length < s.config.rxBufLen →
    exec (.lineRx b) { s with accm := a } = .next { s with accm := a, rxBuf := s.rxBuf ++ [b] })

/-- R130: steps that take chunks of line bytes, each presented when the one before is taken, do what as many steps do on the
concatenation presented whole, so where the chunks were cut shows nowhere; and they complete. (No held submission is to be
accepted in between, log 4.) -/
def Obligations.ChunkingIsNotVisible : Prop :=
  ∀ (cs : List (List Byte)) (s : State), s.input = [] → (s.txQueue ≠ [] ∨ s.held = []) →
    stepChunks cs s = steps cs.flatten.length { s with input := lineRecords cs.flatten } ∧
    ∃ t, stepChunks cs s = .next t ∧ t.input = []

/-- R154: `unstuff`, and that the receive state machine computes it byte by byte, the dangling escape in `rx_esc`. -/
def Obligations.ReceiverComputesUnstuff : Prop :=
  unstuff [] = ([], false) ∧
  unstuff [0x7D#8] = ([], true) ∧
  (∀ b y, unstuff (0x7D#8 :: b :: y) = ((b ^^^ 0x20#8) :: (unstuff y).1, (unstuff y).2)) ∧
  (∀ b y, b ≠ 0x7D#8 → unstuff (b :: y) = (b :: (unstuff y).1, (unstuff y).2)) ∧
  (∀ (s : State) (y : List Byte), s.AfterFlag → flagByte ∉ y → (unstuff y).1.length ≤ s.config.rxBufLen →
    execAll (y.map .lineRx) s = .next { s with rxBuf := (unstuff y).1, rxEsc := (unstuff y).2 })

/-- R131: `7E A 7E B 7E` delivers A and B when each is good, with any number of extra flags before, between and after, which
only discard EMPTY frames; `7E 7E A 7E 7E` delivers A once; bytes after the last flag remain in `rx_buf` and deliver nothing.
The first flag of each is the one the state comes after, or, from HUNT, the one that opens the first frame. -/
def Obligations.FlagsDelimitFrames : Prop :=
  (∀ (s : State) (y c : List Byte) (j k : Nat), s.AfterFlag → flagByte ∉ y →
    unstuff y = (c ++ fcsBytes c, false) → c.length + 2 ≤ s.config.rxBufLen →
    execAll ((List.replicate j flagByte ++ y ++ [flagByte] ++ List.replicate k flagByte).map .lineRx) s =
      .next { s with history := s.history ++ List.replicate j (.discard .empty) ++
        [.frRx c, demux s.ctrl s.proto c] ++ List.replicate k (.discard .empty) }) ∧
  (∀ (s : State) (y y' c c' : List Byte) (j k l : Nat), s.AfterFlag → flagByte ∉ y → flagByte ∉ y' →
    unstuff y = (c ++ fcsBytes c, false) → unstuff y' = (c' ++ fcsBytes c', false) →
    c.length + 2 ≤ s.config.rxBufLen → c'.length + 2 ≤ s.config.rxBufLen →
    execAll ((List.replicate j flagByte ++ y ++ [flagByte] ++ List.replicate k flagByte ++ y' ++ [flagByte] ++
      List.replicate l flagByte).map .lineRx) s =
      .next { s with history := s.history ++ List.replicate j (.discard .empty) ++
        [.frRx c, demux s.ctrl s.proto c] ++ List.replicate k (.discard .empty) ++
        [.frRx c', demux s.ctrl s.proto c'] ++ List.replicate l (.discard .empty) }) ∧
  (∀ s : State, s.rxMode = .hunt → ∃ t, exec (.lineRx flagByte) s = .next t ∧ t.AfterFlag ∧ t.history = s.history) ∧
  (∀ (s : State) (y : List Byte), s.AfterFlag → flagByte ∉ y → (unstuff y).1.length ≤ s.config.rxBufLen →
    execAll (y.map .lineRx) s = .next { s with rxBuf := (unstuff y).1, rxEsc := (unstuff y).2 }) ∧
  (∀ (s t : State) (y : List Byte), flagByte ∉ y → execAll (y.map .lineRx) s = .next t → t.history = s.history)

/-- R133: the round trip through steps of the machine. After a flag, the line form of any payload, without its opening flag,
delivers exactly its content; and from any state the whole line form delivers at most one frame before it. (No held submission
is to be accepted in between, log 4.) -/
def Obligations.HdlcRoundTrip : Prop :=
  ∀ (s : State) (x : List Byte) (a : Word32) (c : Bool) (rest : List Byte),
    (txContent x c).length + 2 ≤ s.config.rxBufLen → (s.txQueue ≠ [] ∨ s.held = []) →
    (s.AfterFlag → s.input = lineRecords ((lineForm x a c).drop 1) ++ rest →
      steps ((lineForm x a c).drop 1).length s = .next { s with
        input := rest
        history := s.history ++ [.frRx (txContent x c), demux s.ctrl s.proto (txContent x c)] }) ∧
    (s.input = lineRecords (lineForm x a c) ++ rest →
      ∃ before, (frRxContents before).length ≤ 1 ∧ (s.rxMode = .hunt → before = []) ∧
        steps (lineForm x a c).length s = .next { s with
          input := rest, rxMode := .frame, rxBuf := [], rxEsc := false, rxOvf := false
          history := s.history ++ before ++ [.frRx (txContent x c), demux s.ctrl s.proto (txContent x c)] })

/-! ### Multiplexer -/

/-- R184, R185: what M does with a content, by its first bytes; what a closing flag puts out (ClosingFlagDecidesInOrder) is
this function of the content and the registers of that step. -/
def Obligations.DemuxFollowsItsStages : Prop :=
  ∀ (ctrl : Ctrl) (proto : List ProtoEntry),
    (∀ p, demux ctrl proto (0xFF#8 :: 0x03#8 :: p) = protocolStage ctrl proto p) ∧
    (∀ c, (∀ p, c ≠ 0xFF#8 :: 0x03#8 :: p) → ctrl.acfc = true → demux ctrl proto c = protocolStage ctrl proto c) ∧
    (∀ c, (∀ p, c ≠ 0xFF#8 :: 0x03#8 :: p) → ctrl.acfc = false → demux ctrl proto c = .discard .noAc) ∧
    protocolStage ctrl proto [] = .discard .short ∧
    (∀ p0 info, p0.getLsbD 0 = true → ctrl.pfc = false → protocolStage ctrl proto (p0 :: info) = .discard .pfcOff) ∧
    (∀ p0 info, p0.getLsbD 0 = true → ctrl.pfc = true →
      protocolStage ctrl proto (p0 :: info) = dispatch proto (p0.setWidth 16) info) ∧
    (∀ p0, p0.getLsbD 0 = false → protocolStage ctrl proto [p0] = .discard .short) ∧
    (∀ p0 p1 info, p0.getLsbD 0 = false → p1.getLsbD 0 = false →
      protocolStage ctrl proto (p0 :: p1 :: info) = .discard .badProto) ∧
    (∀ p0 p1 info, p0.getLsbD 0 = false → p1.getLsbD 0 = true →
      protocolStage ctrl proto (p0 :: p1 :: info) =
        dispatch proto ((p0.setWidth 16 <<< 8) ||| p1.setWidth 16) info)

/-- The address and control stage as rows (after R184), with the row each content has. That the rows of content_ac and
content_pf are instructions which carry their bytes is the model's choice (log 8), and so is AC.ABSENT of a content that
starts FF 03 (log 20). -/
def Obligations.AddressControlStage : Prop :=
  ∀ s : State,
    (∀ p, contentRow (0xFF#8 :: 0x03#8 :: p) = .acPresent p) ∧
    (∀ c, (∀ p, c ≠ 0xFF#8 :: 0x03#8 :: p) → contentRow c = .acAbsent c) ∧
    (∀ p, ∃ t, exec (.acPresent p) s = .next t ∧ exec (fieldRow p) s = .next t) ∧
    (∀ c, s.ctrl.acfc = true → ∃ t, exec (.acAbsent c) s = .next t ∧ exec (fieldRow c) s = .next t) ∧
    (∀ c, s.ctrl.acfc = false →
      exec (.acAbsent c) s = .next { s with history := s.history ++ [.discard .noAc] })

/-- The protocol field stage as rows (after R185), with the row each field has. That the rows of content_pf are instructions
which carry their bytes, of any parity, is the model's choice (logs 8 and 20). -/
def Obligations.ProtocolFieldStage : Prop :=
  ∀ (s : State) (p0 p1 : Byte) (info p : List Byte),
    (s.ctrl.pfc = false →
      exec (.pfComp p0 info) s = .next { s with history := s.history ++ [.discard .pfcOff] }) ∧
    (s.ctrl.pfc = true → exec (.pfComp p0 info) s = .next { s with
      history := s.history ++ [dispatch s.proto (p0.setWidth 16) info] }) ∧
    exec (.pfFull p0 p1 info) s = .next { s with
      history := s.history ++ [dispatch s.proto ((p0.setWidth 16 <<< 8) ||| p1.setWidth 16) info] } ∧
    (p.length < 2 → exec (.pfBad p) s = .next { s with history := s.history ++ [.discard .short] }) ∧
    (2 ≤ p.length → exec (.pfBad p) s = .next { s with history := s.history ++ [.discard .badProto] }) ∧
    fieldRow [] = .pfBad [] ∧
    (p0.getLsbD 0 = true → fieldRow (p0 :: info) = .pfComp p0 info) ∧
    (p0.getLsbD 0 = false → fieldRow [p0] = .pfBad [p0]) ∧
    (p0.getLsbD 0 = false → p1.getLsbD 0 = true → fieldRow (p0 :: p1 :: info) = .pfFull p0 p1 info) ∧
    (p0.getLsbD 0 = false → p1.getLsbD 0 = false → fieldRow (p0 :: p1 :: info) = .pfBad (p0 :: p1 :: info))

/-- R187, R188, R189: the least valid entry that holds the number receives; with none, the number and the information go to
`MUX_REJ`. -/
def Obligations.LeastMatchingHandlerReceives : Prop :=
  ∀ (proto : List ProtoEntry) (n : Word16) (info : List Byte),
    (∀ (i : Nat) (h : i < proto.length), proto[i].valid = true → proto[i].num = n →
      (∀ (j : Nat) (hj : j < i), ¬ (proto[j].valid = true ∧ proto[j].num = n)) →
      dispatch proto n info = .muxRx i info) ∧
    ((∀ e ∈ proto, ¬ (e.valid = true ∧ e.num = n)) → dispatch proto n info = .muxRej n info)

/-- R186, R242: M writes no state; a content row emits one transaction on a handler port or on `MUX_REJ`, or records one of
the discards 6 to 9. -/
def Obligations.MuxWritesNoState : Prop :=
  ∀ (i : Instr) (s : State), i.format = .contentAc ∨ i.format = .contentPf →
    ∃ o, exec i s = .next { s with history := s.history ++ [o] } ∧
      ((∃ k info, o = .muxRx k info ∧ k < s.proto.length) ∨ (∃ n info, o = .muxRej n info) ∨
        (∃ cause : DiscardCause, o = .discard cause ∧ 6 ≤ cause.code))

/-- A number with `n[0] = 1` and `n[8] = 0` sent by one block reaches, in another block with the same CTRL, the least valid
handler of that block's table, or `MUX_REJ` (44_ppp_mux.md, section 3). -/
def Obligations.MuxRoundTrip : Prop :=
  ∀ (s r t : State) (n : Word16) (info : List Byte), s.txQueue = [] → (∀ m i, .mux m i ∉ s.held) →
    r.AfterFlag → r.ctrl = s.ctrl → n.getLsbD 0 = true → n.getLsbD 8 = false → exec (.muxTx n info) s = .next t →
    (txContent (protocolField n s.ctrl.pfc ++ info) s.ctrl.acfc).length + 2 ≤ r.config.rxBufLen →
    execAll ((t.txQueue.drop 1).map .lineRx) r = .next { r with
      history := r.history ++ [.frRx (txContent (protocolField n s.ctrl.pfc ++ info) s.ctrl.acfc),
        dispatch r.proto n info] }

/-- Numbers that are not well formed do not make the round trip (44_ppp_mux.md, section 3). The number 0xFF03 is left out with
ACFC = 1, where its two bytes are read as address and control (log 17). -/
def Obligations.MalformedNumbersFailTheRoundTrip : Prop :=
  ∀ (s r t : State) (n : Word16) (info : List Byte), s.txQueue = [] → (∀ m i, .mux m i ∉ s.held) →
    r.AfterFlag → r.ctrl = s.ctrl → exec (.muxTx n info) s = .next t →
    (txContent (protocolField n s.ctrl.pfc ++ info) s.ctrl.acfc).length + 2 ≤ r.config.rxBufLen →
    (n.getLsbD 8 = false → n.getLsbD 0 = false →
      ∃ c, execAll ((t.txQueue.drop 1).map .lineRx) r = .next { r with
        history := r.history ++ [.frRx c, .discard .badProto] }) ∧
    (n.getLsbD 8 = true → (n ≠ 0xFF03#16 ∨ s.ctrl.acfc = false) → s.ctrl.pfc = false →
      ∃ c, execAll ((t.txQueue.drop 1).map .lineRx) r = .next { r with
        history := r.history ++ [.frRx c, .discard .pfcOff] }) ∧
    (n.getLsbD 8 = true → (n ≠ 0xFF03#16 ∨ s.ctrl.acfc = false) → s.ctrl.pfc = true →
      ∃ c, execAll ((t.txQueue.drop 1).map .lineRx) r = .next { r with
        history := r.history ++
          [.frRx c, dispatch r.proto ((n.extractLsb' 8 8).setWidth 16) (n.extractLsb' 0 8 :: info)] })

/-! ### The whole machine -/

/-- The invariant of R32 holds at reset, whatever the legal parameters. -/
def Obligations.InvariantHoldsAtReset : Prop :=
  State.reset.Inv ∧ ∀ c : Config, c.wf = true → (State.resetWith c).Inv

/-- R32: every step keeps the invariant, from every state that has it; so every state reached from reset has it, whatever is
presented. -/
def Obligations.EveryStepKeepsTheInvariant : Prop :=
  (∀ s t : State, s.Inv → step s = .next t → t.Inv) ∧
  (∀ (c : Config) (input : List Byte) (k : Nat) (t : State), c.wf = true →
    steps k { State.resetWith c with input := input } = .next t → t.Inv)

/-- Every row but RESERVED answers a next state, from every state: nothing traps (after R240). That a submission which holds
takes a step that keeps it is the model's choice (log 3), and so are the idle step and the step that accepts a held submission
(log 4) and the inner rows as instructions from every state and with every field (logs 6, 7, 8, 18 and 20). -/
def Obligations.OnlyReservedStops : Prop :=
  (∀ (i : Instr) (s : State), (∀ v, i ≠ .reserved v) → ∃ t, exec i s = .next t) ∧
  (∀ s : State, (∃ t, step s = .next t) ∨
    ∃ v rest, decodeEvent s.input = .ok (.reserved v) rest ∧ (∀ s', exec (.reserved v) s' = step s))

/-- Frame of a transmit event: the receive path and the registers are untouched by FR_TX, MUX_TX and TXSTEP, and the transmit
queue and the registers by LINE_RX (20_memory.md section 1, 44_ppp_mux.md). -/
def Obligations.TransmitAndReceiveAreIndependent : Prop :=
  (∀ (i : Instr) (s t : State), i = .txstep ∨ (∃ x, i = .frTx x) ∨ (∃ n info, i = .muxTx n info) →
    exec i s = .next t → t = { s with txQueue := t.txQueue, held := t.held, history := t.history }) ∧
  (∀ (b : Byte) (s t : State), exec (.lineRx b) s = .next t →
    t = { s with rxMode := t.rxMode, rxEsc := t.rxEsc, rxOvf := t.rxOvf, rxBuf := t.rxBuf, history := t.history } ∧
    lineTxBytes t.history = lineTxBytes s.history)
end

