-- ==== Sys2Proof/Laws/Encoding.lean ====
section
/-! SUPPORT. Bytes and fields: splitting a field into bytes and joining them again, keys, offsets. -/

namespace Sys2Proof

theorem halfword_join (n : Word16) : n.extractLsb' 8 8 ++ n.extractLsb' 0 8 = n := by
  apply BitVec.eq_of_getLsbD_eq
  intro i h
  simp only [BitVec.getLsbD_append, BitVec.getLsbD_extractLsb']
  by_cases hi : i < 8
  · simp [hi]
  · simp [hi, show i - 8 < 8 by omega, show 8 + (i - 8) = i by omega]

theorem word_join (d : Word32) :
    d.extractLsb' 24 8 ++ d.extractLsb' 16 8 ++ d.extractLsb' 8 8 ++ d.extractLsb' 0 8 = d := by
  apply BitVec.eq_of_getLsbD_eq
  intro i h
  simp only [BitVec.getLsbD_append, BitVec.getLsbD_extractLsb']
  have : i < 8 ∨ (8 ≤ i ∧ i < 16) ∨ (16 ≤ i ∧ i < 24) ∨ (24 ≤ i ∧ i < 32) := by omega
  rcases this with h | ⟨h, h'⟩ | ⟨h, h'⟩ | ⟨h, h'⟩
  · simp [h]
  · simp [show ¬ i < 8 by omega, show i - 8 < 8 by omega, show 8 + (i - 8) = i by omega]
  · simp [show ¬ i < 8 by omega, show ¬ i - 8 < 8 by omega, show i - 8 - 8 < 8 by omega,
      show 16 + (i - 8 - 8) = i by omega]
  · simp [show ¬ i < 8 by omega, show ¬ i - 8 < 8 by omega, show ¬ i - 8 - 8 < 8 by omega,
      show i - 8 - 8 - 8 < 8 by omega, show 24 + (i - 8 - 8 - 8) = i by omega]

theorem lengthBytes_eq (x : List Byte) :
    lengthBytes x = [(BitVec.ofNat 16 x.length).extractLsb' 8 8, (BitVec.ofNat 16 x.length).extractLsb' 0 8] := rfl

theorem length_join (x : List Byte) (h : fitsLength x = true) :
    ((BitVec.ofNat 16 x.length).extractLsb' 8 8 ++ (BitVec.ofNat 16 x.length).extractLsb' 0 8).toNat = x.length := by
  rw [halfword_join]
  simp only [fitsLength, decide_eq_true_eq] at h
  simp [BitVec.toNat_ofNat, Nat.mod_eq_of_lt h]

theorem decodeEvent_frTx_bytes (h l : Byte) (x : List Byte) (hn : (h ++ l).toNat ≤ x.length) :
    decodeEvent (0x05#8 :: h :: l :: x) = .ok (.frTx (x.take (h ++ l).toNat)) (x.drop (h ++ l).toNat) := by
  have hd : decodeEvent (0x05#8 :: h :: l :: x) = if (h ++ l).toNat ≤ x.length then
      .ok (.frTx (x.take (h ++ l).toNat)) (x.drop (h ++ l).toNat)
    else truncatedRecord (0x05#8 :: h :: l :: x) := rfl
  rw [hd, if_pos hn]

theorem decodeEvent_muxTx_bytes (p q h l : Byte) (x : List Byte) (hn : (h ++ l).toNat ≤ x.length) :
    decodeEvent (0x06#8 :: p :: q :: h :: l :: x) =
      .ok (.muxTx (p ++ q) (x.take (h ++ l).toNat)) (x.drop (h ++ l).toNat) := by
  have hd : decodeEvent (0x06#8 :: p :: q :: h :: l :: x) = if (h ++ l).toNat ≤ x.length then
      .ok (.muxTx (p ++ q) (x.take (h ++ l).toNat)) (x.drop (h ++ l).toNat)
    else truncatedRecord (0x06#8 :: p :: q :: h :: l :: x) := rfl
  rw [hd, if_pos hn]

/-- A whole FR_TX record is read back, whatever follows it. -/
theorem decodeEvent_frTx (x rest : List Byte) (h : fitsLength x = true) :
    decodeEvent (encode (.frTx x) ++ rest) = .ok (.frTx x) rest := by
  have hl := length_join x h
  have hn := decodeEvent_frTx_bytes ((BitVec.ofNat 16 x.length).extractLsb' 8 8)
    ((BitVec.ofNat 16 x.length).extractLsb' 0 8) (x ++ rest) (by rw [hl]; simp)
  simp only [hl, List.take_left, List.drop_left] at hn
  exact hn

/-- A whole MUX_TX record is read back, whatever follows it. -/
theorem decodeEvent_muxTx (n : Word16) (x rest : List Byte) (h : fitsLength x = true) :
    decodeEvent (encode (.muxTx n x) ++ rest) = .ok (.muxTx n x) rest := by
  have hl := length_join x h
  have hn := decodeEvent_muxTx_bytes (n.extractLsb' 8 8) (n.extractLsb' 0 8)
    ((BitVec.ofNat 16 x.length).extractLsb' 8 8) ((BitVec.ofNat 16 x.length).extractLsb' 0 8) (x ++ rest)
    (by rw [hl]; simp)
  simp only [hl, List.take_left, List.drop_left] at hn
  rw [halfword_join] at hn
  exact hn

/-- A whole HOST_WR record is read back, whatever follows it. -/
theorem decodeEvent_hostWr (off : Byte) (d : Word32) (rest : List Byte) :
    decodeEvent (encode (.hostWr off d) ++ rest) = .ok (.hostWr off d) rest := by
  have : decodeEvent (encode (.hostWr off d) ++ rest) = .ok (.hostWr off
      (d.extractLsb' 24 8 ++ d.extractLsb' 16 8 ++ d.extractLsb' 8 8 ++ d.extractLsb' 0 8)) rest := rfl
  rw [this, word_join]

theorem decodeLineKey_lineKey (f e : Bool) (b : Byte) (r : List Byte) :
    decodeLineKey (lineKey f e b ++ r) = .ok (lineRow f e b) r := by
  cases f <;> cases e <;> rfl

theorem regSelect_protoOffset (nproto : Nat) (i : BitVec 4) (h : i.toNat < nproto) :
    regSelect nproto (protoOffset i) = .proto i := by
  have key : ∀ i : BitVec 4, protoOffset i ≠ 0x00#8 ∧ protoOffset i ≠ 0x04#8 ∧ protoOffset i ≠ 0x08#8 ∧
      (protoOffset i).extractLsb' 6 2 = 0b01#2 ∧ (protoOffset i).extractLsb' 0 2 = 0b00#2 ∧
      (protoOffset i).extractLsb' 2 4 = i := by decide
  obtain ⟨h0, h1, h2, h3, h4, h5⟩ := key i
  simp [regSelect, h0, h1, h2, h3, h4, h5, h]

theorem regSelect_unmapped (nproto : Nat) (off : Byte) (h : offsetUnmapped nproto off = true) :
    regSelect nproto off = .unmapped := by
  have key : ∀ off : Byte, off.extractLsb' 6 2 = 0b01#2 → off.extractLsb' 0 2 = 0b00#2 →
      off.toNat = 0x40 + 4 * (off.extractLsb' 2 4).toNat := by decide
  have bnd : ∀ off : Byte, (off.extractLsb' 2 4).toNat < 16 := fun off => (off.extractLsb' 2 4).isLt
  have hb := bnd off
  simp only [offsetUnmapped, Bool.and_eq_true, Bool.not_eq_true', Bool.or_eq_false_iff, decide_eq_false_iff_not,
    Bool.and_eq_false_iff] at h
  obtain ⟨⟨⟨h0, h1⟩, h2⟩, h3⟩ := h
  simp only [regSelect, h0, h1, h2, if_false]
  split
  · rename_i hc
    have := key off hc.1 hc.2.1
    omega
  · rfl

/-- The register an offset selects and whether the map leaves it out say the same (R60, R79). -/
theorem regSelect_eq_unmapped_iff (nproto : Nat) (off : Byte) :
    regSelect nproto off = .unmapped ↔ offsetUnmapped nproto off = true := by
  refine ⟨fun h => ?_, regSelect_unmapped nproto off⟩
  have key : ∀ off : Byte, 0x40 ≤ off.toNat → off.toNat < 0x80 → off.toNat % 4 = 0 →
      off.extractLsb' 6 2 = 0b01#2 ∧ off.extractLsb' 0 2 = 0b00#2 ∧
      off.toNat = 0x40 + 4 * (off.extractLsb' 2 4).toNat := by decide
  simp only [offsetUnmapped, Bool.and_eq_true, Bool.not_eq_true', Bool.or_eq_false_iff, decide_eq_false_iff_not,
    Bool.and_eq_false_iff]
  unfold regSelect at h
  split at h; · simp at h
  split at h; · simp at h
  split at h; · simp at h
  split at h; · simp at h
  rename_i h0 h1 h2 h3
  refine ⟨⟨⟨h0, h1⟩, h2⟩, ?_⟩
  by_contra hc
  simp only [not_or, not_not] at hc
  obtain ⟨⟨⟨a, b⟩, c⟩, d⟩ := hc
  obtain ⟨k1, k2, k3⟩ := key off a c d
  exact h3 ⟨k1, k2, by omega⟩

end Sys2Proof
end

