-- ==== Sys2Proof/Laws/Crc.lean ====
section
/-! SUPPORT. The CRC (43_crc16.md) and the FCS bytes of a frame. -/

namespace Sys2Proof.Machine

theorem crcReg_append_byte (x : List Byte) (b : Byte) : crcReg (x ++ [b]) = crcStep (crcReg x) b := by
  simp [crcReg]

theorem crcShift_eq (r : Word16) : crcShift r = (r >>> 1) ^^^ (if r.getLsbD 0 then 0x8408#16 else 0#16) := by
  unfold crcShift
  split <;> simp

/-- One shift is linear (R172). -/
theorem crcShift_xor (r r' : Word16) : crcShift (r ^^^ r') = crcShift r ^^^ crcShift r' := by
  have key : ∀ p q : Bool, (if (p ^^ q) = true then 0x8408#16 else 0#16) =
      (if p = true then 0x8408#16 else 0#16) ^^^ (if q = true then 0x8408#16 else 0#16) := by decide
  simp only [crcShift_eq, BitVec.getLsbD_xor, BitVec.ushiftRight_xor_distrib, key]
  ac_rfl

theorem crcShifts_xor (k : Nat) (r r' : Word16) : crcShifts k (r ^^^ r') = crcShifts k r ^^^ crcShifts k r' := by
  induction k generalizing r r' with
  | zero => rfl
  | succ k ih => simp only [crcShifts, crcShift_xor, ih]

/-- Bit 15 after a shift is bit 0 before it, so a shift loses nothing (R172). -/
theorem crcShift_injective : Function.Injective crcShift := by
  intro r r' h
  have top : ∀ r : Word16, (crcShift r).getLsbD 15 = r.getLsbD 0 := by
    intro r
    rw [crcShift_eq, BitVec.getLsbD_xor]
    cases r.getLsbD 0 <;> simp
  have h0 : r.getLsbD 0 = r'.getLsbD 0 := by rw [← top r, ← top r', h]
  apply BitVec.eq_of_getLsbD_eq
  intro i hi
  rcases i with _ | i
  · exact h0
  · have := congrArg (fun v => v.getLsbD i) h
    simp only [crcShift_eq, BitVec.getLsbD_xor, BitVec.getLsbD_ushiftRight, h0] at this
    rw [Nat.add_comm i 1]
    revert this
    generalize r.getLsbD (1 + i) = p
    generalize r'.getLsbD (1 + i) = q
    generalize BitVec.getLsbD _ i = w
    revert p q w
    decide

theorem crcShifts_injective (k : Nat) : Function.Injective (crcShifts k) := by
  induction k with
  | zero => exact fun _ _ h => h
  | succ k ih => exact fun _ _ h => crcShift_injective (ih h)

@[simp] theorem fcsBytes_length (c : List Byte) : (fcsBytes c).length = 2 := rfl

@[simp] theorem receivedContent_append (c : List Byte) (lo hi : Byte) : receivedContent (c ++ [lo, hi]) = c := by
  simp [receivedContent]

/-- The two last bytes assemble low byte first (R76). -/
@[simp] theorem receivedFcs_append (c : List Byte) (lo hi : Byte) : receivedFcs (c ++ [lo, hi]) = hi ++ lo := by
  have h1 : (c ++ [lo, hi]).getD ((c ++ [lo, hi]).length - 2) 0 = lo := by simp [List.getD]
  have h2 : (c ++ [lo, hi]).getD ((c ++ [lo, hi]).length - 1) 0 = hi := by simp [List.getD]
  rw [receivedFcs, h1, h2]
  apply BitVec.eq_of_getLsbD_eq
  intro i hi'
  simp only [BitVec.getLsbD_or, BitVec.getLsbD_setWidth, BitVec.getLsbD_shiftLeft, BitVec.getLsbD_append]
  by_cases h : i < 8
  · simp [h, hi']
  · simp [h, hi', show i - 8 < 16 by omega, BitVec.getLsbD_of_ge lo i (by omega)]

theorem fcs_join (c : List Byte) : (fcs16 c).extractLsb' 8 8 ++ (fcs16 c).extractLsb' 0 8 = fcs16 c := halfword_join _

end Sys2Proof.Machine
end

