-- ==== Sys2Proof/Laws/State.lean ====
section
/-! SUPPORT. One lemma per field per update of the state, each true by rfl; and one lemma for each shared operation that
branches, saying once all it can do. -/

namespace Sys2Proof.Machine

variable (s : State)

@[simp] theorem State.emit_config (o : Output) : (s.emit o).config = s.config := rfl
@[simp] theorem State.emit_accm (o : Output) : (s.emit o).accm = s.accm := rfl
@[simp] theorem State.emit_ctrl (o : Output) : (s.emit o).ctrl = s.ctrl := rfl
@[simp] theorem State.emit_proto (o : Output) : (s.emit o).proto = s.proto := rfl
@[simp] theorem State.emit_rxMode (o : Output) : (s.emit o).rxMode = s.rxMode := rfl
@[simp] theorem State.emit_rxEsc (o : Output) : (s.emit o).rxEsc = s.rxEsc := rfl
@[simp] theorem State.emit_rxOvf (o : Output) : (s.emit o).rxOvf = s.rxOvf := rfl
@[simp] theorem State.emit_rxBuf (o : Output) : (s.emit o).rxBuf = s.rxBuf := rfl
@[simp] theorem State.emit_txQueue (o : Output) : (s.emit o).txQueue = s.txQueue := rfl
@[simp] theorem State.emit_history (o : Output) : (s.emit o).history = s.history ++ [o] := rfl
@[simp] theorem State.emit_input (o : Output) : (s.emit o).input = s.input := rfl
@[simp] theorem State.emit_held (o : Output) : (s.emit o).held = s.held := rfl
@[simp] theorem State.emit_order (o : Output) : (s.emit o).order = s.order := rfl

@[simp] theorem State.emits_config (os : List Output) : (s.emits os).config = s.config := rfl
@[simp] theorem State.emits_accm (os : List Output) : (s.emits os).accm = s.accm := rfl
@[simp] theorem State.emits_ctrl (os : List Output) : (s.emits os).ctrl = s.ctrl := rfl
@[simp] theorem State.emits_proto (os : List Output) : (s.emits os).proto = s.proto := rfl
@[simp] theorem State.emits_rxMode (os : List Output) : (s.emits os).rxMode = s.rxMode := rfl
@[simp] theorem State.emits_rxEsc (os : List Output) : (s.emits os).rxEsc = s.rxEsc := rfl
@[simp] theorem State.emits_rxOvf (os : List Output) : (s.emits os).rxOvf = s.rxOvf := rfl
@[simp] theorem State.emits_rxBuf (os : List Output) : (s.emits os).rxBuf = s.rxBuf := rfl
@[simp] theorem State.emits_txQueue (os : List Output) : (s.emits os).txQueue = s.txQueue := rfl
@[simp] theorem State.emits_history (os : List Output) : (s.emits os).history = s.history ++ os := rfl
@[simp] theorem State.emits_input (os : List Output) : (s.emits os).input = s.input := rfl
@[simp] theorem State.emits_held (os : List Output) : (s.emits os).held = s.held := rfl
@[simp] theorem State.emits_order (os : List Output) : (s.emits os).order = s.order := rfl

@[simp] theorem State.clearRx_config : (s.clearRx).config = s.config := rfl
@[simp] theorem State.clearRx_accm : (s.clearRx).accm = s.accm := rfl
@[simp] theorem State.clearRx_ctrl : (s.clearRx).ctrl = s.ctrl := rfl
@[simp] theorem State.clearRx_proto : (s.clearRx).proto = s.proto := rfl
@[simp] theorem State.clearRx_rxMode : (s.clearRx).rxMode = s.rxMode := rfl
@[simp] theorem State.clearRx_rxEsc : (s.clearRx).rxEsc = false := rfl
@[simp] theorem State.clearRx_rxOvf : (s.clearRx).rxOvf = false := rfl
@[simp] theorem State.clearRx_rxBuf : (s.clearRx).rxBuf = [] := rfl
@[simp] theorem State.clearRx_txQueue : (s.clearRx).txQueue = s.txQueue := rfl
@[simp] theorem State.clearRx_history : (s.clearRx).history = s.history := rfl
@[simp] theorem State.clearRx_input : (s.clearRx).input = s.input := rfl
@[simp] theorem State.clearRx_held : (s.clearRx).held = s.held := rfl
@[simp] theorem State.clearRx_order : (s.clearRx).order = s.order := rfl

@[simp] theorem State.closeFrame_config : (s.closeFrame).config = s.config := rfl
@[simp] theorem State.closeFrame_accm : (s.closeFrame).accm = s.accm := rfl
@[simp] theorem State.closeFrame_ctrl : (s.closeFrame).ctrl = s.ctrl := rfl
@[simp] theorem State.closeFrame_proto : (s.closeFrame).proto = s.proto := rfl
@[simp] theorem State.closeFrame_rxMode : (s.closeFrame).rxMode = s.rxMode := rfl
@[simp] theorem State.closeFrame_rxEsc : (s.closeFrame).rxEsc = s.rxEsc := rfl
@[simp] theorem State.closeFrame_rxOvf : (s.closeFrame).rxOvf = s.rxOvf := rfl
@[simp] theorem State.closeFrame_rxBuf : (s.closeFrame).rxBuf = s.rxBuf := rfl
@[simp] theorem State.closeFrame_txQueue : (s.closeFrame).txQueue = s.txQueue := rfl
@[simp] theorem State.closeFrame_history : (s.closeFrame).history = s.history ++ closeOutputs s.ctrl s.proto s.rxEsc s.rxOvf s.rxBuf := rfl
@[simp] theorem State.closeFrame_input : (s.closeFrame).input = s.input := rfl
@[simp] theorem State.closeFrame_held : (s.closeFrame).held = s.held := rfl
@[simp] theorem State.closeFrame_order : (s.closeFrame).order = s.order := rfl

@[simp] theorem State.pushLine_config (bs : List Byte) : (s.pushLine bs).config = s.config := rfl
@[simp] theorem State.pushLine_accm (bs : List Byte) : (s.pushLine bs).accm = s.accm := rfl
@[simp] theorem State.pushLine_ctrl (bs : List Byte) : (s.pushLine bs).ctrl = s.ctrl := rfl
@[simp] theorem State.pushLine_proto (bs : List Byte) : (s.pushLine bs).proto = s.proto := rfl
@[simp] theorem State.pushLine_rxMode (bs : List Byte) : (s.pushLine bs).rxMode = s.rxMode := rfl
@[simp] theorem State.pushLine_rxEsc (bs : List Byte) : (s.pushLine bs).rxEsc = s.rxEsc := rfl
@[simp] theorem State.pushLine_rxOvf (bs : List Byte) : (s.pushLine bs).rxOvf = s.rxOvf := rfl
@[simp] theorem State.pushLine_rxBuf (bs : List Byte) : (s.pushLine bs).rxBuf = s.rxBuf := rfl
@[simp] theorem State.pushLine_txQueue (bs : List Byte) : (s.pushLine bs).txQueue = s.txQueue ++ bs := rfl
@[simp] theorem State.pushLine_history (bs : List Byte) : (s.pushLine bs).history = s.history := rfl
@[simp] theorem State.pushLine_input (bs : List Byte) : (s.pushLine bs).input = s.input := rfl
@[simp] theorem State.pushLine_held (bs : List Byte) : (s.pushLine bs).held = s.held := rfl
@[simp] theorem State.pushLine_order (bs : List Byte) : (s.pushLine bs).order = s.order := rfl

@[simp] theorem State.accept_config (sub : Submission) : (s.accept sub).config = s.config := rfl
@[simp] theorem State.accept_accm (sub : Submission) : (s.accept sub).accm = s.accm := rfl
@[simp] theorem State.accept_ctrl (sub : Submission) : (s.accept sub).ctrl = s.ctrl := rfl
@[simp] theorem State.accept_proto (sub : Submission) : (s.accept sub).proto = s.proto := rfl
@[simp] theorem State.accept_rxMode (sub : Submission) : (s.accept sub).rxMode = s.rxMode := rfl
@[simp] theorem State.accept_rxEsc (sub : Submission) : (s.accept sub).rxEsc = s.rxEsc := rfl
@[simp] theorem State.accept_rxOvf (sub : Submission) : (s.accept sub).rxOvf = s.rxOvf := rfl
@[simp] theorem State.accept_rxBuf (sub : Submission) : (s.accept sub).rxBuf = s.rxBuf := rfl
@[simp] theorem State.accept_txQueue (sub : Submission) : (s.accept sub).txQueue = lineForm (sub.payload s.ctrl.pfc) s.accm s.ctrl.acfc := rfl
@[simp] theorem State.accept_history (sub : Submission) : (s.accept sub).history = s.history := rfl
@[simp] theorem State.accept_input (sub : Submission) : (s.accept sub).input = s.input := rfl
@[simp] theorem State.accept_held (sub : Submission) : (s.accept sub).held = s.held := rfl
@[simp] theorem State.accept_order (sub : Submission) : (s.accept sub).order = s.order := rfl

@[simp] theorem State.hold_config (sub : Submission) : (s.hold sub).config = s.config := rfl
@[simp] theorem State.hold_accm (sub : Submission) : (s.hold sub).accm = s.accm := rfl
@[simp] theorem State.hold_ctrl (sub : Submission) : (s.hold sub).ctrl = s.ctrl := rfl
@[simp] theorem State.hold_proto (sub : Submission) : (s.hold sub).proto = s.proto := rfl
@[simp] theorem State.hold_rxMode (sub : Submission) : (s.hold sub).rxMode = s.rxMode := rfl
@[simp] theorem State.hold_rxEsc (sub : Submission) : (s.hold sub).rxEsc = s.rxEsc := rfl
@[simp] theorem State.hold_rxOvf (sub : Submission) : (s.hold sub).rxOvf = s.rxOvf := rfl
@[simp] theorem State.hold_rxBuf (sub : Submission) : (s.hold sub).rxBuf = s.rxBuf := rfl
@[simp] theorem State.hold_txQueue (sub : Submission) : (s.hold sub).txQueue = s.txQueue := rfl
@[simp] theorem State.hold_history (sub : Submission) : (s.hold sub).history = s.history := rfl
@[simp] theorem State.hold_input (sub : Submission) : (s.hold sub).input = s.input := rfl
@[simp] theorem State.hold_held (sub : Submission) : (s.hold sub).held = s.held ++ [sub] := rfl
@[simp] theorem State.hold_order (sub : Submission) : (s.hold sub).order = s.order := rfl

@[simp] theorem State.hostRead_config (r : RegSel) : (s.hostRead r).config = s.config := rfl
@[simp] theorem State.hostRead_accm (r : RegSel) : (s.hostRead r).accm = s.accm := rfl
@[simp] theorem State.hostRead_ctrl (r : RegSel) : (s.hostRead r).ctrl = s.ctrl := rfl
@[simp] theorem State.hostRead_proto (r : RegSel) : (s.hostRead r).proto = s.proto := rfl
@[simp] theorem State.hostRead_rxMode (r : RegSel) : (s.hostRead r).rxMode = s.rxMode := rfl
@[simp] theorem State.hostRead_rxEsc (r : RegSel) : (s.hostRead r).rxEsc = s.rxEsc := rfl
@[simp] theorem State.hostRead_rxOvf (r : RegSel) : (s.hostRead r).rxOvf = s.rxOvf := rfl
@[simp] theorem State.hostRead_rxBuf (r : RegSel) : (s.hostRead r).rxBuf = s.rxBuf := rfl
@[simp] theorem State.hostRead_txQueue (r : RegSel) : (s.hostRead r).txQueue = s.txQueue := rfl
@[simp] theorem State.hostRead_history (r : RegSel) : (s.hostRead r).history = s.history ++ [.hostRd (s.readReg r)] := rfl
@[simp] theorem State.hostRead_input (r : RegSel) : (s.hostRead r).input = s.input := rfl
@[simp] theorem State.hostRead_held (r : RegSel) : (s.hostRead r).held = s.held := rfl
@[simp] theorem State.hostRead_order (r : RegSel) : (s.hostRead r).order = s.order := rfl

@[simp] theorem State.present_config (record : List Byte) : (s.present record).config = s.config := rfl
@[simp] theorem State.present_accm (record : List Byte) : (s.present record).accm = s.accm := rfl
@[simp] theorem State.present_ctrl (record : List Byte) : (s.present record).ctrl = s.ctrl := rfl
@[simp] theorem State.present_proto (record : List Byte) : (s.present record).proto = s.proto := rfl
@[simp] theorem State.present_rxMode (record : List Byte) : (s.present record).rxMode = s.rxMode := rfl
@[simp] theorem State.present_rxEsc (record : List Byte) : (s.present record).rxEsc = s.rxEsc := rfl
@[simp] theorem State.present_rxOvf (record : List Byte) : (s.present record).rxOvf = s.rxOvf := rfl
@[simp] theorem State.present_rxBuf (record : List Byte) : (s.present record).rxBuf = s.rxBuf := rfl
@[simp] theorem State.present_txQueue (record : List Byte) : (s.present record).txQueue = s.txQueue := rfl
@[simp] theorem State.present_history (record : List Byte) : (s.present record).history = s.history := rfl
@[simp] theorem State.present_input (record : List Byte) : (s.present record).input = record ++ s.input := rfl
@[simp] theorem State.present_held (record : List Byte) : (s.present record).held = s.held := rfl
@[simp] theorem State.present_order (record : List Byte) :
    (s.present record).order = if s.awaiting then .record :: s.order else s.order := rfl

@[simp] theorem State.toReset_config : (s.toReset).config = s.config := rfl
@[simp] theorem State.toReset_accm : (s.toReset).accm = 0xFFFFFFFF#32 := rfl
@[simp] theorem State.toReset_ctrl : (s.toReset).ctrl = { acfc := false, pfc := false } := rfl
@[simp] theorem State.toReset_proto : (s.toReset).proto = List.replicate s.config.nproto { valid := false, num := 0x0000#16 } := rfl
@[simp] theorem State.toReset_rxMode : (s.toReset).rxMode = .hunt := rfl
@[simp] theorem State.toReset_rxEsc : (s.toReset).rxEsc = false := rfl
@[simp] theorem State.toReset_rxOvf : (s.toReset).rxOvf = false := rfl
@[simp] theorem State.toReset_rxBuf : (s.toReset).rxBuf = [] := rfl
@[simp] theorem State.toReset_txQueue : (s.toReset).txQueue = [] := rfl
@[simp] theorem State.toReset_history : (s.toReset).history = s.history := rfl
@[simp] theorem State.toReset_input : (s.toReset).input = s.input := rfl
@[simp] theorem State.toReset_held : (s.toReset).held = s.held := rfl
@[simp] theorem State.toReset_order : (s.toReset).order = s.order := rfl

/-- Everything `append` can do (R126). -/
theorem State.appendRx_cases (v : Byte) :
    (s.rxBuf.length < s.config.rxBufLen ∧ s.appendRx v = { s with rxBuf := s.rxBuf ++ [v] }) ∨
    (¬ s.rxBuf.length < s.config.rxBufLen ∧ s.appendRx v = { s with rxOvf := true }) := by
  unfold State.appendRx
  split
  · exact .inl ⟨‹_›, rfl⟩
  · exact .inr ⟨‹_›, rfl⟩

/-- Everything `TXSTEP` can do (R103). -/
theorem State.sendByte_cases :
    (s.txQueue = [] ∧ s.sendByte = s) ∨
    (∃ b q, s.txQueue = b :: q ∧ s.sendByte = { s with txQueue := q, history := s.history ++ [.lineTx b] }) := by
  unfold State.sendByte
  split
  · exact .inr ⟨_, _, ‹_›, rfl⟩
  · exact .inl ⟨‹_›, rfl⟩

/-- Everything a submission can do (R102, R182, R62): with the queue empty it is accepted, or the oldest held one of its port
is and it holds; else it holds. -/
theorem State.submit_cases (sub : Submission) :
    (s.txQueue = [] ∧ (∀ old ∈ s.held, old.port ≠ sub.port) ∧ s.submit sub = s.accept sub) ∨
    (∃ before old after, s.txQueue = [] ∧ s.held = before ++ old :: after ∧ (∀ b ∈ before, b.port ≠ sub.port) ∧
      old.port = sub.port ∧
      s.submit sub = { s.accept old with held := before ++ after ++ [sub] }) ∨
    (s.txQueue ≠ [] ∧ s.submit sub = s.hold sub) := by
  by_cases hq : s.txQueue = []
  · cases h : s.held.find? (onPort sub.port) with
    | none =>
      refine .inl ⟨hq, fun old ho => ?_, by simp only [State.submit, if_pos hq, h]⟩
      simpa [onPort] using List.find?_eq_none.1 h old ho
    | some old =>
      obtain ⟨hp, before, after, hs, hb⟩ := List.find?_eq_some_iff_append.1 h
      have hp' : old.port = sub.port := by simpa [onPort] using hp
      have hb' : ∀ b ∈ before, ¬ onPort sub.port b = true := fun b m => by simpa using hb b m
      refine .inr (.inl ⟨before, old, after, hq, hs, fun b m => by simpa [onPort] using hb b m, hp', ?_⟩)
      have he : s.held.eraseP (onPort sub.port) = before ++ after := by
        rw [hs, List.eraseP_append_right _ hb', List.eraseP_cons_of_pos hp]
      simp only [State.submit, if_pos hq, h, he]
      rfl
  · exact .inr (.inr ⟨hq, by simp only [State.submit, if_neg hq]⟩)

/-- A submission changes nothing but these (R102, R182). -/
theorem State.submit_frame (sub : Submission) :
    s.submit sub = { s with txQueue := (s.submit sub).txQueue, held := (s.submit sub).held } := by
  rcases s.submit_cases sub with ⟨-, -, h⟩ | ⟨_, _, _, -, -, -, -, h⟩ | ⟨-, h⟩ <;> rw [h] <;> rfl

/-- A submission that finds no older one of its port held is accepted by an idle transmitter. -/
theorem State.submit_idle {sub : Submission} (hq : s.txQueue = []) (hh : ∀ old ∈ s.held, old.port ≠ sub.port) :
    s.submit sub = s.accept sub := by
  rcases s.submit_cases sub with ⟨-, -, h⟩ | ⟨_, old, _, -, hs, -, hp, -⟩ | ⟨h, -⟩
  · exact h
  · exact absurd hp (hh old (by simp [hs]))
  · exact absurd hq h

/-- A busy transmitter holds a submission. -/
theorem State.submit_busy {sub : Submission} (hq : s.txQueue ≠ []) : s.submit sub = s.hold sub := by
  simp only [State.submit, if_neg hq]

/-- Acceptance of the oldest held submission (R102). -/
theorem State.acceptOldest_cons {sub : Submission} {rest : List Submission} (h : s.held = sub :: rest) :
    s.acceptOldest = { s with
      held := rest, txQueue := lineForm (sub.payload s.ctrl.pfc) s.accm s.ctrl.acfc } := by
  unfold State.acceptOldest
  rw [h]
  rfl

theorem State.not_awaiting_iff : s.awaiting = false ↔ s.txQueue ≠ [] ∨ s.held = [] := by
  cases hq : s.txQueue <;> cases hh : s.held <;> simp [State.awaiting, hq, hh]

theorem State.awaiting_iff : s.awaiting = true ↔ s.txQueue = [] ∧ ∃ sub rest, s.held = sub :: rest := by
  cases hq : s.txQueue <;> cases hh : s.held <;> simp [State.awaiting, hq, hh]

/-- Everything a register write can do (R211 to R215). -/
theorem State.writeReg_cases (d : Word32) (r : RegSel) :
    (r = .accm ∧ s.writeReg d r = { s with accm := d }) ∨
    (r = .ctrl ∧ s.writeReg d r = { s with ctrl := Ctrl.ofWord d }) ∨
    (∃ i, r = .proto i ∧ i.toNat < s.config.nproto ∧
      s.writeReg d r = { s with proto := s.proto.set i.toNat (ProtoEntry.ofWord d) }) ∨
    s.writeReg d r = s := by
  cases r with
  | accm => exact .inl ⟨rfl, rfl⟩
  | ctrl => exact .inr (.inl ⟨rfl, rfl⟩)
  | status => exact .inr (.inr (.inr rfl))
  | unmapped => exact .inr (.inr (.inr rfl))
  | proto i =>
    by_cases h : i.toNat < s.config.nproto
    · exact .inr (.inr (.inl ⟨i, rfl, h, by simp [State.writeReg, State.setProto, h]⟩))
    · exact .inr (.inr (.inr (by simp [State.writeReg, State.setProto, h])))

/-- A write of a register leaves these fields alone (R54). -/
theorem State.writeReg_frame (d : Word32) (r : RegSel) :
    (s.writeReg d r).config = s.config ∧ (s.writeReg d r).rxMode = s.rxMode ∧ (s.writeReg d r).rxEsc = s.rxEsc ∧
    (s.writeReg d r).rxOvf = s.rxOvf ∧ (s.writeReg d r).rxBuf = s.rxBuf ∧ (s.writeReg d r).txQueue = s.txQueue ∧
    (s.writeReg d r).history = s.history ∧ (s.writeReg d r).input = s.input ∧ (s.writeReg d r).held = s.held := by
  rcases s.writeReg_cases d r with ⟨-, h⟩ | ⟨-, h⟩ | ⟨i, -, -, h⟩ | h <;> rw [h] <;> simp

end Sys2Proof.Machine
end

