-- ==== Sys2Proof/Laws/HostRegs.lean ====
section
/-! SUPPORT. Host accesses: what HOST_WR and HOST_RD do, and register values bit by bit (45_host_interface.md). -/

namespace Sys2Proof.Machine

/-- HOST_WR writes the register its offset selects (R79, R211 to R215). -/
theorem exec_hostWr (off : Byte) (d : Word32) (s : State) :
    exec (.hostWr off d) s = .next (s.writeReg d (regSelect s.config.nproto off)) := by
  show execHostWr off d s = _
  unfold execHostWr
  cases regSelect s.config.nproto off <;> rfl

/-- HOST_RD returns the register its offset selects (R79, R216 to R220). -/
theorem exec_hostRd (off : Byte) (s : State) :
    exec (.hostRd off) s = .next (s.hostRead (regSelect s.config.nproto off)) := by
  show execHostRd off s = _
  unfold execHostRd
  cases regSelect s.config.nproto off <;> rfl

/-- Two status bits and 30 zeros (R217, R218). -/
theorem two_bit_word : ∀ p q : Bool,
    ((BitVec.ofBool p).setWidth 32 <<< 1) ||| (BitVec.ofBool q).setWidth 32 =
      0#30 ++ BitVec.ofBool p ++ BitVec.ofBool q := by decide

theorem Ctrl.word_eq (c : Ctrl) : c.word = 0#30 ++ BitVec.ofBool c.pfc ++ BitVec.ofBool c.acfc := two_bit_word _ _

theorem State.statusWord_eq (s : State) :
    s.statusWord = 0#30 ++ BitVec.ofBool (decide (s.rxMode = .hunt)) ++ BitVec.ofBool (decide (s.txQueue ≠ [])) := by
  have : s.txBusy = decide (s.txQueue ≠ []) := by
    unfold State.txBusy
    cases s.txQueue <;> simp
  rw [State.statusWord, two_bit_word, this]
  rfl

/-- VALID, 15 zeros, NUM (R219). -/
theorem ProtoEntry.word_eq (e : ProtoEntry) : e.word = BitVec.ofBool e.valid ++ 0#15 ++ e.num := by
  apply BitVec.eq_of_getLsbD_eq
  intro j hj
  simp only [ProtoEntry.word, BitVec.getLsbD_or, BitVec.getLsbD_shiftLeft, BitVec.getLsbD_setWidth,
    BitVec.getLsbD_append]
  by_cases h1 : j < 16
  · simp [h1, hj, show j < 31 by omega]
  by_cases h2 : j < 31
  · simp [h1, h2, BitVec.getLsbD_of_ge e.num j (by omega), show j - 16 < 15 by omega]
  · have : j = 31 := by omega
    subst this
    simp

/-- The fields of a register value written back give the entry back. -/
@[simp] theorem ProtoEntry.ofWord_word (e : ProtoEntry) : ProtoEntry.ofWord e.word = e := by
  obtain ⟨v, n⟩ := e
  have hv : (ProtoEntry.word ⟨v, n⟩).getLsbD 31 = v := by
    rw [ProtoEntry.word_eq]
    rw [BitVec.getLsbD_append, BitVec.getLsbD_append]
    simp
  have hn : (ProtoEntry.word ⟨v, n⟩).extractLsb' 0 16 = n := by
    rw [ProtoEntry.word_eq]
    apply BitVec.eq_of_getLsbD_eq
    intro j hj
    simp only [BitVec.getLsbD_extractLsb', BitVec.getLsbD_append]
    simp [hj]
  rw [ProtoEntry.ofWord, hv, hn]

@[simp] theorem Ctrl.ofWord_word (c : Ctrl) : Ctrl.ofWord c.word = c := by
  obtain ⟨a, p⟩ := c
  cases a <;> cases p <;> decide

/-- PROTO[i] keeps bit 31 and bits 15:0 of what is written (R214, R219). -/
theorem ProtoEntry.word_ofWord (d : Word32) : (ProtoEntry.ofWord d).word = d &&& 0x8000FFFF#32 := by
  rw [ProtoEntry.word_eq, ProtoEntry.ofWord]
  apply BitVec.eq_of_getLsbD_eq
  intro j hj
  have key : ∀ j : Fin 32, (0x8000FFFF#32).getLsbD j = decide (j.val < 16 ∨ j.val = 31) := by decide
  have kj := key ⟨j, hj⟩
  simp only [BitVec.getLsbD_append, BitVec.getLsbD_and] at kj ⊢
  rw [kj]
  by_cases h1 : j < 16
  · simp [h1]
  by_cases h2 : j < 31
  · simp [h1, show j - 16 < 15 by omega, show j ≠ 31 by omega]
  · have : j = 31 := by omega
    subst this
    simp

/-- CTRL keeps bits 1:0 of what is written (R212, R217). -/
theorem Ctrl.word_ofWord (d : Word32) : (Ctrl.ofWord d).word = d &&& 0x00000003#32 := by
  rw [Ctrl.word_eq, Ctrl.ofWord]
  apply BitVec.eq_of_getLsbD_eq
  intro j hj
  have key : ∀ j : Fin 32, (0x00000003#32).getLsbD j = decide (j.val < 2) := by decide
  have kj := key ⟨j, hj⟩
  simp only [BitVec.getLsbD_append, BitVec.getLsbD_and] at kj ⊢
  rw [kj]
  rcases j with _ | _ | j
  · simp
  · simp
  · simp

/-- Everything the offset decode can give (R79). -/
theorem regSelect_cases (nproto : Nat) (off : Byte) :
    (off = 0x00#8 ∧ regSelect nproto off = .accm) ∨ (off = 0x04#8 ∧ regSelect nproto off = .ctrl) ∨
    (off = 0x08#8 ∧ regSelect nproto off = .status) ∨
    (∃ i : BitVec 4, off = protoOffset i ∧ i.toNat < nproto ∧ regSelect nproto off = .proto i) ∨
    regSelect nproto off = .unmapped := by
  have key : ∀ off : Byte, off.extractLsb' 6 2 = 0b01#2 → off.extractLsb' 0 2 = 0b00#2 →
      off = protoOffset (off.extractLsb' 2 4) := by decide
  by_cases h0 : off = 0x00#8
  · exact .inl ⟨h0, if_pos h0⟩
  by_cases h1 : off = 0x04#8
  · exact .inr (.inl ⟨h1, by rw [regSelect, if_neg h0, if_pos h1]⟩)
  by_cases h2 : off = 0x08#8
  · exact .inr (.inr (.inl ⟨h2, by rw [regSelect, if_neg h0, if_neg h1, if_pos h2]⟩))
  by_cases h3 : off.extractLsb' 6 2 = 0b01#2 ∧ off.extractLsb' 0 2 = 0b00#2 ∧ (off.extractLsb' 2 4).toNat < nproto
  · exact .inr (.inr (.inr (.inl ⟨_, key off h3.1 h3.2.1, h3.2.2,
      by rw [regSelect, if_neg h0, if_neg h1, if_neg h2, if_pos h3]⟩)))
  · exact .inr (.inr (.inr (.inr (by rw [regSelect, if_neg h0, if_neg h1, if_neg h2, if_neg h3]))))

/-- A register has one offset (R60, R79). -/
theorem regSelect_injective {nproto : Nat} {off off' : Byte} (hr : regSelect nproto off ≠ .unmapped)
    (h : regSelect nproto off = regSelect nproto off') : off = off' := by
  rcases regSelect_cases nproto off with ⟨a, e⟩ | ⟨a, e⟩ | ⟨a, e⟩ | ⟨i, a, -, e⟩ | e <;>
    rcases regSelect_cases nproto off' with ⟨a', e'⟩ | ⟨a', e'⟩ | ⟨a', e'⟩ | ⟨i', a', -, e'⟩ | e' <;>
    rw [e, e'] at h <;> first | exact absurd e hr | (cases h <;> rw [a, a'])

end Sys2Proof.Machine
end

