-- ==== Sys2Proof/Laws/Mux.lean ====
section
/-! SUPPORT. The multiplexer: all that dispatch and demultiplexing can emit, and the content rows as stages of `demux`
(44_ppp_mux.md). -/

namespace Sys2Proof.Machine

/-- What M can emit for one content (R184 to R189): a handler port of the table, the rejection port, or a discard of code 6
to 9. -/
def MuxOutput (proto : List ProtoEntry) (o : Output) : Prop :=
  (∃ k info, o = .muxRx k info ∧ k < proto.length) ∨ (∃ n info, o = .muxRej n info) ∨
  (∃ cause : DiscardCause, o = .discard cause ∧ 6 ≤ cause.code)

theorem muxOutput_discard (proto : List ProtoEntry) {cause : DiscardCause} (h : 6 ≤ cause.code) :
    MuxOutput proto (.discard cause) := .inr (.inr ⟨cause, rfl, h⟩)

theorem dispatch_output (proto : List ProtoEntry) (n : Word16) (info : List Byte) :
    MuxOutput proto (dispatch proto n info) := by
  unfold dispatch
  split
  · rename_i i h
    exact .inl ⟨i, info, rfl, (List.findIdx?_eq_some_iff_getElem.1 h).1⟩
  · exact .inr (.inl ⟨n, info, rfl⟩)

theorem compressedField_output (ctrl : Ctrl) (proto : List ProtoEntry) (p0 : Byte) (info : List Byte) :
    MuxOutput proto (compressedField ctrl proto p0 info) := by
  unfold compressedField
  split
  · exact dispatch_output _ _ _
  · exact muxOutput_discard _ (by decide)

theorem badField_output (proto : List ProtoEntry) (p : List Byte) : MuxOutput proto (badField p) := by
  unfold badField
  split <;> exact muxOutput_discard _ (by decide)

theorem protocolStage_output (ctrl : Ctrl) (proto : List ProtoEntry) (p : List Byte) :
    MuxOutput proto (protocolStage ctrl proto p) := by
  unfold protocolStage
  repeat' split
  all_goals first
    | exact dispatch_output _ _ _
    | exact compressedField_output _ _ _ _
    | exact muxOutput_discard _ (by decide)

theorem absentAddress_output (ctrl : Ctrl) (proto : List ProtoEntry) (c : List Byte) :
    MuxOutput proto (absentAddress ctrl proto c) := by
  unfold absentAddress
  split
  · exact protocolStage_output _ _ _
  · exact muxOutput_discard _ (by decide)

theorem demux_output (ctrl : Ctrl) (proto : List ProtoEntry) (c : List Byte) :
    MuxOutput proto (demux ctrl proto c) := by
  unfold demux
  split
  · exact protocolStage_output _ _ _
  · exact absentAddress_output _ _ _

/-- The row of a protocol field does the protocol field stage (R185). -/
theorem exec_fieldRow (s : State) (p : List Byte) :
    exec (fieldRow p) s = .next (s.emit (protocolStage s.ctrl s.proto p)) := by
  rcases p with _ | ⟨p0, r⟩
  · rfl
  by_cases h0 : p0.getLsbD 0 = true
  · simp only [fieldRow, protocolStage, if_pos h0]
    rfl
  rcases r with _ | ⟨p1, r⟩
  · simp only [fieldRow, protocolStage, if_neg h0]
    rfl
  by_cases h1 : p1.getLsbD 0 = true
  · simp only [fieldRow, protocolStage, if_neg h0, if_pos h1]
    rfl
  · simp only [fieldRow, protocolStage, if_neg h0, if_neg h1]
    rfl

/-- The row of a content demultiplexes it (R184). -/
theorem exec_contentRow (s : State) (c : List Byte) :
    exec (contentRow c) s = .next (s.emit (demux s.ctrl s.proto c)) := by
  rcases c with _ | ⟨a, _ | ⟨k, p⟩⟩
  · rfl
  · rfl
  unfold contentRow demux startsAddressControl
  by_cases h : a = 0xFF#8 ∧ k = 0x03#8
  · simp only [if_pos h]
    rw [if_pos (by simp [h])]
    rfl
  · simp only [if_neg h]
    rw [if_neg (by simpa using h)]
    rfl

end Sys2Proof.Machine
end

