-- ==== Sys2Proof/Laws/PerInstr.lean ====
section
/-! SUPPORT. Family RoundTrip: the decoder of a row's format reads the encoder's bytes back as that row, with every field. -/

namespace Sys2Proof.Laws

/-- The round trip of one instruction, for every NPROTO. -/
def RoundTrip.Statement (i : Instr) : Prop :=
  ∀ nproto, i.wf nproto = true → decode nproto i.format (encode i) = .ok i []

theorem RoundTrip.reset : RoundTrip.Statement .reset := fun _ _ => rfl

theorem RoundTrip.lineRx (b : Byte) : RoundTrip.Statement (.lineRx b) := fun _ _ => rfl

theorem RoundTrip.txstep : RoundTrip.Statement .txstep := fun _ _ => rfl

theorem RoundTrip.hostWr (off : Byte) (d : Word32) : RoundTrip.Statement (.hostWr off d) := by
  intro n _
  simpa [decode, Instr.format] using decodeEvent_hostWr off d []

theorem RoundTrip.hostRd (off : Byte) : RoundTrip.Statement (.hostRd off) := fun _ _ => rfl

theorem RoundTrip.frTx (x : List Byte) : RoundTrip.Statement (.frTx x) := by
  intro n h
  simpa [decode, Instr.format] using decodeEvent_frTx x [] h

theorem RoundTrip.muxTx (n : Word16) (info : List Byte) : RoundTrip.Statement (.muxTx n info) := by
  intro np h
  simpa [decode, Instr.format] using decodeEvent_muxTx n info [] h

/-- A cut record is read as the truncated record it is. -/
theorem decodeEvent_recordCut (r : List Byte) (h : recordCut r = true) :
    decodeEvent r = .ok (.reserved (.truncated r)) [] := by
  obtain _ | ⟨c, r⟩ := r
  · cases h
  by_cases h1 : c = 0x01#8
  · subst h1
    match r, h with
    | [], _ => rfl
    | _ :: r, h => simp [recordCut] at h
  by_cases h3 : c = 0x03#8
  · subst h3
    match r, h with
    | [], _ | [_], _ | [_, _], _ | [_, _, _], _ | [_, _, _, _], _ => rfl
    | _ :: _ :: _ :: _ :: _ :: _, h =>
      simp [recordCut] at h
      omega
  by_cases h4 : c = 0x04#8
  · subst h4
    match r, h with
    | [], _ => rfl
    | _ :: r, h => simp [recordCut] at h
  by_cases h5 : c = 0x05#8
  · subst h5
    match r, h with
    | [], _ | [_], _ => rfl
    | a :: b :: x, h =>
      have hn : x.length < (a ++ b).toNat := of_decide_eq_true h
      have hd : decodeEvent (0x05#8 :: a :: b :: x) = if (a ++ b).toNat ≤ x.length then
          .ok (.frTx (x.take (a ++ b).toNat)) (x.drop (a ++ b).toNat)
        else truncatedRecord (0x05#8 :: a :: b :: x) := rfl
      rw [hd, if_neg (Nat.not_le.mpr hn)]
      rfl
  by_cases h6 : c = 0x06#8
  · subst h6
    match r, h with
    | [], _ | [_], _ | [_, _], _ | [_, _, _], _ => rfl
    | p :: q :: a :: b :: x, h =>
      have hn : x.length < (a ++ b).toNat := of_decide_eq_true h
      have hd : decodeEvent (0x06#8 :: p :: q :: a :: b :: x) = if (a ++ b).toNat ≤ x.length then
          .ok (.muxTx (p ++ q) (x.take (a ++ b).toNat)) (x.drop (a ++ b).toNat)
        else truncatedRecord (0x06#8 :: p :: q :: a :: b :: x) := rfl
      rw [hd, if_neg (Nat.not_le.mpr hn)]
      rfl
  · simp [recordCut, h1, h3, h4, h5, h6] at h

/-- A reserved code is read as the reserved code it is. -/
theorem decodeEvent_reservedCode (c : Byte) (rest : List Byte) (h : 7 ≤ c.toNat) :
    decodeEvent (c :: rest) = .ok (.reserved (.reservedCode c)) rest := by
  have key : ∀ k : Nat, k < 7 → c ≠ BitVec.ofNat 8 k := by
    intro k hk hc
    rw [hc, BitVec.toNat_ofNat, Nat.mod_eq_of_lt (by omega)] at h
    omega
  simp [decodeEvent, key 0 (by omega), key 1 (by omega), key 2 (by omega), key 3 (by omega), key 4 (by omega),
    key 5 (by omega), key 6 (by omega)]

theorem RoundTrip.reserved (v : Verdict) : RoundTrip.Statement (.reserved v) := by
  intro n h
  cases v with
  | reservedCode c => exact decodeEvent_reservedCode c [] (by simpa [Instr.wf] using h)
  | truncated r => exact decodeEvent_recordCut r h

theorem lineKey_roundTrip (n : Nat) (f e : Bool) (b : Byte) :
    decode n .lineRx (lineKey f e b) = .ok (lineRow f e b) [] := by
  simpa [decode] using decodeLineKey_lineKey f e b []

theorem RoundTrip.lrxHuntFlag (e : Bool) : RoundTrip.Statement (.lrxHuntFlag e) :=
  fun n _ => lineKey_roundTrip n false e flagByte

theorem RoundTrip.lrxHuntSkip (e : Bool) (b : Byte) : RoundTrip.Statement (.lrxHuntSkip e b) := by
  intro n h
  have hb : b ≠ flagByte := by simpa [Instr.wf] using h
  simpa [lineRow, hb, Instr.format, encode] using lineKey_roundTrip n false e b

theorem RoundTrip.lrxClose (e : Bool) : RoundTrip.Statement (.lrxClose e) :=
  fun n _ => lineKey_roundTrip n true e flagByte

theorem RoundTrip.lrxEsc : RoundTrip.Statement .lrxEsc := fun n _ => lineKey_roundTrip n true false escByte

theorem RoundTrip.lrxUnesc (b : Byte) : RoundTrip.Statement (.lrxUnesc b) := by
  intro n h
  have hb : b ≠ flagByte := by simpa [Instr.wf] using h
  simpa [lineRow, hb, Instr.format, encode] using lineKey_roundTrip n true true b

theorem RoundTrip.lrxData (b : Byte) : RoundTrip.Statement (.lrxData b) := by
  intro n h
  have hb : b ≠ flagByte ∧ b ≠ escByte := by simpa [Instr.wf] using h
  simpa [lineRow, hb.1, hb.2, Instr.format, encode] using lineKey_roundTrip n true false b

theorem RoundTrip.txbFlag : RoundTrip.Statement .txbFlag := fun _ _ => rfl

theorem RoundTrip.txbEsc : RoundTrip.Statement .txbEsc := fun _ _ => rfl

theorem RoundTrip.txbCtrl (b : Byte) : RoundTrip.Statement (.txbCtrl b) := by
  intro n h
  have hb : b.toNat < 0x20 := by simpa [Instr.wf] using h
  have h1 : b ≠ flagByte := by rintro rfl; simp at hb
  have h2 : b ≠ escByte := by rintro rfl; simp at hb
  simp [decode, Instr.format, encode, decodeTxByte, txRow, h1, h2, hb]

theorem RoundTrip.txbLit (b : Byte) : RoundTrip.Statement (.txbLit b) := by
  intro n h
  have hb : (0x20 ≤ b.toNat ∧ b ≠ flagByte) ∧ b ≠ escByte := by simpa [Instr.wf] using h
  simp [decode, Instr.format, encode, decodeTxByte, txRow, hb.1.2, hb.2, show ¬ b.toNat < 0x20 by omega]

theorem RoundTrip.acPresent (p : List Byte) : RoundTrip.Statement (.acPresent p) := fun _ _ => rfl

theorem contentRow_absent (c : List Byte) (h : startsAddressControl c = false) : contentRow c = .acAbsent c := by
  match c, h with
  | [], _ | [_], _ => rfl
  | a :: k :: p, h =>
    have : ¬ (a = 0xFF#8 ∧ k = 0x03#8) := by simpa [startsAddressControl] using h
    simp only [contentRow, if_neg this]

theorem RoundTrip.acAbsent (c : List Byte) : RoundTrip.Statement (.acAbsent c) := by
  intro n h
  have hc : startsAddressControl c = false := by simpa [Instr.wf] using h
  simp [decode, Instr.format, encode, contentRow_absent c hc]

theorem RoundTrip.pfComp (p0 : Byte) (info : List Byte) : RoundTrip.Statement (.pfComp p0 info) := by
  intro n h
  have hp : p0.getLsbD 0 = true := h
  simp only [decode, Instr.format, encode, fieldRow, hp, if_true]

theorem RoundTrip.pfFull (p0 p1 : Byte) (info : List Byte) : RoundTrip.Statement (.pfFull p0 p1 info) := by
  intro n h
  have hp : p0.getLsbD 0 = false ∧ p1.getLsbD 0 = true := by simpa only [Instr.wf, Bool.and_eq_true, Bool.not_eq_true'] using h
  simp only [decode, Instr.format, encode, fieldRow, hp.1, hp.2, if_true, Bool.false_eq_true, if_false]

theorem RoundTrip.pfBad (p : List Byte) : RoundTrip.Statement (.pfBad p) := by
  intro n h
  have hp : protocolFieldBad p = true := h
  match p, hp with
  | [], _ => rfl
  | [p0], hp =>
    have h0 : p0.getLsbD 0 = false := by simpa only [protocolFieldBad, Bool.not_eq_true'] using hp
    simp only [decode, Instr.format, encode, fieldRow, h0, Bool.false_eq_true, if_false]
  | p0 :: p1 :: r, hp =>
    have h0 : p0.getLsbD 0 = false ∧ p1.getLsbD 0 = false := by
      simpa only [protocolFieldBad, Bool.and_eq_true, Bool.not_eq_true'] using hp
    simp only [decode, Instr.format, encode, fieldRow, h0.1, h0.2, Bool.false_eq_true, if_false]

/-- A host_wr record reads as the row of its offset, its data as written. -/
theorem decodeHostWr_record (n : Nat) (off : Byte) (d : Word32) :
    decode n .hostWr (0x03#8 :: off :: wordBytes d) = .ok (writeRow n off d) [] := by
  have : decode n .hostWr (0x03#8 :: off :: wordBytes d) = .ok (writeRow n off
      (d.extractLsb' 24 8 ++ d.extractLsb' 16 8 ++ d.extractLsb' 8 8 ++ d.extractLsb' 0 8)) [] := rfl
  rw [this, word_join]

theorem RoundTrip.wrAccm (d : Word32) : RoundTrip.Statement (.wrAccm d) := fun n _ => decodeHostWr_record n 0x00#8 d

theorem RoundTrip.wrCtrl (d : Word32) : RoundTrip.Statement (.wrCtrl d) := fun n _ => decodeHostWr_record n 0x04#8 d

theorem RoundTrip.wrStatus (d : Word32) : RoundTrip.Statement (.wrStatus d) :=
  fun n _ => decodeHostWr_record n 0x08#8 d

theorem RoundTrip.wrProto (i : BitVec 4) (d : Word32) : RoundTrip.Statement (.wrProto i d) := by
  intro n h
  have hi : i.toNat < n := by simpa [Instr.wf] using h
  simpa [Instr.format, encode, writeRow, regSelect_protoOffset n i hi] using decodeHostWr_record n (protoOffset i) d

theorem RoundTrip.wrUnmapped (off : Byte) (d : Word32) : RoundTrip.Statement (.wrUnmapped off d) := by
  intro n h
  simpa [Instr.format, encode, writeRow, regSelect_unmapped n off h] using decodeHostWr_record n off d

theorem RoundTrip.rdAccm : RoundTrip.Statement .rdAccm := fun _ _ => rfl

theorem RoundTrip.rdCtrl : RoundTrip.Statement .rdCtrl := fun _ _ => rfl

theorem RoundTrip.rdStatus : RoundTrip.Statement .rdStatus := fun _ _ => rfl

theorem RoundTrip.rdProto (i : BitVec 4) : RoundTrip.Statement (.rdProto i) := by
  intro n h
  have hi : i.toNat < n := by simpa [Instr.wf] using h
  have : decode n .hostRd [0x04#8, protoOffset i] = .ok (readRow n (protoOffset i)) [] := rfl
  simpa [Instr.format, encode, readRow, regSelect_protoOffset n i hi] using this

theorem RoundTrip.rdUnmapped (off : Byte) : RoundTrip.Statement (.rdUnmapped off) := by
  intro n h
  have : decode n .hostRd [0x04#8, off] = .ok (readRow n off) [] := rfl
  simpa [Instr.format, encode, readRow, regSelect_unmapped n off h] using this

end Sys2Proof.Laws
end

