-- ==== Sys2Proof/Laws/Stuffing.lean ====
section
/-! SUPPORT. Byte-stuffing, one byte at a time, and its inverse (42_byte_stuffing.md). -/

namespace Sys2Proof.Machine

/-- Which bytes can be escaped at all, whatever the map (R150). -/
theorem esc_imp {accm : Word32} {b : Byte} (h : esc accm b = true) : b = flagByte ∨ b = escByte ∨ b.toNat < 0x20 := by
  simp only [esc, Bool.or_eq_true, Bool.and_eq_true, decide_eq_true_eq] at h
  tauto

theorem not_esc_imp {accm : Word32} {b : Byte} (h : esc accm b = false) : b ≠ flagByte ∧ b ≠ escByte := by
  simp only [esc, Bool.or_eq_false_iff, decide_eq_false_iff_not] at h
  exact h.1

/-- The second byte of an escape pair is neither the flag nor the escape (R155 items 1 and 2). -/
theorem escape_second {accm : Word32} {b : Byte} (h : esc accm b = true) :
    b ^^^ 0x20#8 ≠ flagByte ∧ b ^^^ 0x20#8 ≠ escByte := by
  have key : ∀ b : Byte, b = flagByte ∨ b = escByte ∨ b.toNat < 0x20 →
      b ^^^ 0x20#8 ≠ flagByte ∧ b ^^^ 0x20#8 ≠ escByte := by decide
  exact key b (esc_imp h)

/-- Flipping bit 5 twice gives the byte back (R78). -/
@[simp] theorem xor_escape_twice (b : Byte) : b ^^^ 0x20#8 ^^^ 0x20#8 = b := by
  rw [BitVec.xor_assoc, BitVec.xor_self, BitVec.xor_zero]

/-- Everything `stuff_byte` can give (R151). -/
theorem stuffByte_cases (accm : Word32) (b : Byte) :
    (esc accm b = true ∧ stuffByte accm b = [escByte, b ^^^ 0x20#8]) ∨ (esc accm b = false ∧ stuffByte accm b = [b]) := by
  cases h : esc accm b
  · exact .inr ⟨rfl, by simp [stuffByte, h]⟩
  · exact .inl ⟨rfl, by simp [stuffByte, h, escapePair]⟩

@[simp] theorem stuff_nil (accm : Word32) : stuff accm [] = [] := rfl

@[simp] theorem stuff_cons (accm : Word32) (b : Byte) (x : List Byte) :
    stuff accm (b :: x) = stuffByte accm b ++ stuff accm x := rfl

@[simp] theorem unstuff_escape_pair (b : Byte) (y : List Byte) :
    unstuff (escByte :: b :: y) = ((b ^^^ 0x20#8) :: (unstuff y).1, (unstuff y).2) := by
  rw [unstuff, if_pos rfl]

theorem unstuff_literal (b : Byte) (y : List Byte) (h : b ≠ escByte) :
    unstuff (b :: y) = (b :: (unstuff y).1, (unstuff y).2) := by
  cases y with
  | nil => simp [unstuff, h]
  | cons b' r => rw [unstuff, if_neg h]

/-- One stuffed byte un-stuffs to itself, whatever follows. -/
theorem unstuff_stuffByte_append (accm : Word32) (b : Byte) (y : List Byte) :
    unstuff (stuffByte accm b ++ y) = (b :: (unstuff y).1, (unstuff y).2) := by
  rcases stuffByte_cases accm b with ⟨-, h⟩ | ⟨he, h⟩ <;> rw [h]
  · simp
  · exact unstuff_literal b y (not_esc_imp he).2

theorem flag_notMem_stuffByte (accm : Word32) (b : Byte) : flagByte ∉ stuffByte accm b := by
  rcases stuffByte_cases accm b with ⟨he, h⟩ | ⟨he, h⟩ <;> rw [h]
  · have := (escape_second he).1
    simp only [List.mem_cons, List.not_mem_nil, or_false, not_or]
    exact ⟨by decide, fun h => this h.symm⟩
  · have := (not_esc_imp he).1
    simp only [List.mem_cons, List.not_mem_nil, or_false]
    exact fun h => this h.symm

end Sys2Proof.Machine
end

