-- ==== Sys2Proof/Laws/Receive.lean ====
section
/-! SUPPORT. Line bytes one after the other: what LINE_RX does in each state, runs, and a stuffed list fed whole. -/

namespace Sys2Proof.Machine

theorem execAll_append (is js : List Instr) (s : State) :
    execAll (is ++ js) s =
      match execAll is s with
      | .next t => execAll js t
      | .fault f => .fault f
      | .refused r => .refused r := by
  induction is generalizing s with
  | nil => rfl
  | cons i is ih =>
    simp only [List.cons_append, execAll]
    cases exec i s <;> simp [ih]

theorem execAll_append_next {is js : List Instr} {s t : State} (h : execAll is s = .next t) :
    execAll (is ++ js) s = execAll js t := by rw [execAll_append, h]

theorem execAll_cons_next {i : Instr} {is : List Instr} {s t : State} (h : exec i s = .next t) :
    execAll (i :: is) s = execAll is t := by simp only [execAll, h]

theorem exec_lineRx_hunt {s : State} (hm : s.rxMode = .hunt) (b : Byte) : exec (.lineRx b) s =
    if b = flagByte then .next { s.clearRx with rxMode := .frame } else .next s := by
  show execLineRx b s = _
  unfold execLineRx
  split
  · rfl
  · rename_i h
    rw [hm] at h
    cases h

theorem exec_lineRx_frame {s : State} (hm : s.rxMode = .frame) (b : Byte) : exec (.lineRx b) s =
    if b = flagByte then .next s.closeFrame.clearRx
    else if s.rxEsc then .next (State.appendRx { s with rxEsc := false } (b ^^^ 0x20#8))
    else if b = escByte then .next { s with rxEsc := true }
    else .next (s.appendRx b) := by
  show execLineRx b s = _
  unfold execLineRx
  split
  · rename_i h
    rw [hm] at h
    cases h
  · rfl

/-- The state LINE_RX leaves: a line byte always completes (R80). -/
def lineNext (b : Byte) (s : State) : State :=
  if s.rxMode = .hunt then
    if b = flagByte then { s.clearRx with rxMode := .frame } else s
  else if b = flagByte then s.closeFrame.clearRx
  else if s.rxEsc then State.appendRx { s with rxEsc := false } (b ^^^ 0x20#8)
  else if b = escByte then { s with rxEsc := true }
  else s.appendRx b

theorem exec_lineRx (b : Byte) (s : State) : exec (.lineRx b) s = .next (lineNext b s) := by
  have hmode : s.rxMode = .hunt ∨ s.rxMode = .frame := by cases s.rxMode <;> simp
  rcases hmode with hm | hm
  · rw [exec_lineRx_hunt hm, lineNext, if_pos hm]
    by_cases hb : b = flagByte
    · rw [if_pos hb, if_pos hb]
    · rw [if_neg hb, if_neg hb]
  · have hn : ¬ s.rxMode = .hunt := by rw [hm]; decide
    rw [exec_lineRx_frame hm, lineNext, if_neg hn]
    by_cases hb : b = flagByte
    · rw [if_pos hb, if_pos hb]
    rw [if_neg hb, if_neg hb]
    by_cases he : s.rxEsc = true
    · rw [if_pos he, if_pos he]
    rw [if_neg he, if_neg he]
    by_cases hx : b = escByte
    · rw [if_pos hx, if_pos hx]
    · rw [if_neg hx, if_neg hx]

theorem execAll_lineRx (bs : List Byte) (s : State) :
    execAll (bs.map .lineRx) s = .next (bs.foldl (fun s b => lineNext b s) s) := by
  induction bs generalizing s with
  | nil => rfl
  | cons b bs ih => rw [List.map_cons, execAll, exec_lineRx]; exact ih _

/-- The receive path neither reads nor writes the stream of records (log 2). -/
theorem lineNext_input (b : Byte) (s : State) (inp : List Byte) :
    lineNext b { s with input := inp } = { lineNext b s with input := inp } := by
  unfold lineNext State.appendRx
  simp only [apply_ite (fun t : State => { t with input := inp })]
  rfl

/-- The receive path does not consult ACCM (R132). -/
theorem lineNext_accm (b : Byte) (s : State) (a : Word32) :
    lineNext b { s with accm := a } = { lineNext b s with accm := a } := by
  unfold lineNext State.appendRx
  simp only [apply_ite (fun t : State => { t with accm := a })]
  rfl

theorem escByte_ne_flagByte : escByte ≠ flagByte := by decide

/-- Everything LINE_RX can do (R80, R121 to R127). -/
theorem exec_lineRx_cases (b : Byte) (s : State) :
    (s.rxMode = .hunt ∧ b = flagByte ∧ exec (.lineRx b) s = .next { s.clearRx with rxMode := .frame }) ∨
    (s.rxMode = .hunt ∧ b ≠ flagByte ∧ exec (.lineRx b) s = .next s) ∨
    (s.rxMode = .frame ∧ b = flagByte ∧ exec (.lineRx b) s = .next s.closeFrame.clearRx) ∨
    (s.rxMode = .frame ∧ b ≠ flagByte ∧ s.rxEsc = true ∧
      exec (.lineRx b) s = .next (State.appendRx { s with rxEsc := false } (b ^^^ 0x20#8))) ∨
    (s.rxMode = .frame ∧ b = escByte ∧ s.rxEsc = false ∧ exec (.lineRx b) s = .next { s with rxEsc := true }) ∨
    (s.rxMode = .frame ∧ b ≠ flagByte ∧ b ≠ escByte ∧ s.rxEsc = false ∧ exec (.lineRx b) s = .next (s.appendRx b)) := by
  have hmode : s.rxMode = .hunt ∨ s.rxMode = .frame := by cases s.rxMode <;> simp
  rcases hmode with hm | hm
  · rw [exec_lineRx_hunt hm]
    by_cases hb : b = flagByte
    · exact .inl ⟨hm, hb, if_pos hb⟩
    · exact .inr (.inl ⟨hm, hb, if_neg hb⟩)
  · rw [exec_lineRx_frame hm]
    refine .inr (.inr ?_)
    by_cases hb : b = flagByte
    · exact .inl ⟨hm, hb, if_pos hb⟩
    rw [if_neg hb]
    by_cases he : s.rxEsc = true
    · exact .inr (.inl ⟨hm, hb, he, if_pos he⟩)
    rw [if_neg he]
    have he' := Bool.not_eq_true _ ▸ he
    by_cases hx : b = escByte
    · exact .inr (.inr (.inl ⟨hm, hx, he', if_pos hx⟩))
    · exact .inr (.inr (.inr ⟨hm, hb, hx, he', if_neg hx⟩))

section InFrame
variable {s : State} (hm : s.rxMode = .frame)
include hm

theorem exec_lineRx_flag : exec (.lineRx flagByte) s = .next s.closeFrame.clearRx := by
  rw [exec_lineRx_frame hm, if_pos rfl]

theorem exec_lineRx_escape (he : s.rxEsc = false) : exec (.lineRx escByte) s = .next { s with rxEsc := true } := by
  rw [exec_lineRx_frame hm, if_neg escByte_ne_flagByte, if_neg (by simp [he]), if_pos rfl]

theorem exec_lineRx_unescape {b : Byte} (he : s.rxEsc = true) (hb : b ≠ flagByte)
    (hl : s.rxBuf.length < s.config.rxBufLen) :
    exec (.lineRx b) s = .next { s with rxEsc := false, rxBuf := s.rxBuf ++ [b ^^^ 0x20#8] } := by
  rw [exec_lineRx_frame hm, if_neg hb, if_pos he, State.appendRx, if_pos hl]

theorem exec_lineRx_data {b : Byte} (he : s.rxEsc = false) (hb : b ≠ flagByte) (hx : b ≠ escByte)
    (hl : s.rxBuf.length < s.config.rxBufLen) :
    exec (.lineRx b) s = .next { s with rxBuf := s.rxBuf ++ [b] } := by
  rw [exec_lineRx_frame hm, if_neg hb, if_neg (by simp [he]), if_neg hx, State.appendRx, if_pos hl]

/-- One stuffed byte, fed whole, stores the byte. -/
theorem execAll_stuffByte (accm : Word32) (b : Byte) (he : s.rxEsc = false)
    (hl : s.rxBuf.length < s.config.rxBufLen) :
    execAll ((stuffByte accm b).map .lineRx) s = .next { s with rxBuf := s.rxBuf ++ [b] } := by
  rcases stuffByte_cases accm b with ⟨hesc, h⟩ | ⟨hesc, h⟩ <;> rw [h]
  · simp only [List.map_cons, List.map_nil]
    rw [execAll_cons_next (exec_lineRx_escape hm he)]
    have h2 := exec_lineRx_unescape (s := { s with rxEsc := true }) (b := b ^^^ 0x20#8) hm rfl (escape_second hesc).1 hl
    rw [execAll_cons_next h2, xor_escape_twice]
    simp [execAll, he.symm]
  · have hb := not_esc_imp hesc
    simp only [List.map_cons, List.map_nil]
    rw [execAll_cons_next (exec_lineRx_data hm he hb.1 hb.2 hl)]
    rfl

/-- A stuffed list, fed whole, stores the list (R133, R154). -/
theorem execAll_stuff (accm : Word32) (x : List Byte) (he : s.rxEsc = false)
    (hl : s.rxBuf.length + x.length ≤ s.config.rxBufLen) :
    execAll ((stuff accm x).map .lineRx) s = .next { s with rxBuf := s.rxBuf ++ x } := by
  induction x generalizing s with
  | nil => simp [execAll]
  | cons b x ih =>
    simp only [List.length_cons] at hl
    rw [stuff_cons, List.map_append, execAll_append_next (execAll_stuffByte hm accm b he (by omega)),
      ih (s := { s with rxBuf := s.rxBuf ++ [b] }) hm he (by simp only [List.length_append, List.length_singleton]; omega)]
    simp

end InFrame

/-- A buffer that holds a content and its FCS bytes closes as a good frame (R128, R129). -/
theorem closeOutputs_good (ctrl : Ctrl) (proto : List ProtoEntry) (c : List Byte) :
    closeOutputs ctrl proto false false (c ++ fcsBytes c) = [.frRx c, demux ctrl proto c] := by
  have hl : (c ++ fcsBytes c).length = c.length + 2 := by simp
  have h1 : receivedContent (c ++ fcsBytes c) = c := receivedContent_append c _ _
  have h2 : receivedFcs (c ++ fcsBytes c) = fcs16 c := by
    rw [fcsBytes, receivedFcs_append, fcs_join]
  simp [closeOutputs, hl, h1, h2, fcsOk]

/-- The line form is its opening flag, the stuffed content and FCS, and its closing flag (R101). -/
theorem lineForm_eq (x : List Byte) (a : Word32) (c : Bool) :
    lineForm x a c = flagByte :: (stuff a (txContent x c ++ fcsBytes (txContent x c)) ++ [flagByte]) := rfl

/-- After a flag, the rest of a line form delivers its content (R133). -/
theorem execAll_lineForm_rest {s : State} (hs : s.AfterFlag) (x : List Byte) (a : Word32) (c : Bool)
    (hl : (txContent x c).length + 2 ≤ s.config.rxBufLen) :
    execAll (((lineForm x a c).drop 1).map .lineRx) s = .next { s with
      history := s.history ++ [.frRx (txContent x c), demux s.ctrl s.proto (txContent x c)] } := by
  obtain ⟨hm, hb, he, ho⟩ := hs
  rw [lineForm_eq, List.drop_one, List.tail_cons, List.map_append,
    execAll_append_next (execAll_stuff hm a _ he (by simp [hb]; omega))]
  simp only [List.map_cons, List.map_nil]
  rw [execAll_cons_next (exec_lineRx_flag (s := { s with rxBuf := s.rxBuf ++ _ }) hm)]
  simp only [execAll, hb, List.nil_append]
  simp [State.closeFrame, State.emits, State.clearRx, he, ho, closeOutputs_good]

end Sys2Proof.Machine
end

