-- ==== Sys2Proof/Laws/Transmit.lean ====
section
/-! SUPPORT. The transmit byte rows against `stuff` (30_encoding.md R81, 42_byte_stuffing.md R151), stuffed lists joined, and
which outputs are line bytes. -/

namespace Sys2Proof.Machine

/-- The row of a byte joins what `stuff_byte` gives (R151). -/
theorem exec_txRow (b : Byte) (s : State) :
    exec (txRow b) s = .next { s with txQueue := s.txQueue ++ stuffByte s.accm b } := by
  unfold txRow
  by_cases h1 : b = flagByte
  · subst h1
    rfl
  by_cases h2 : b = escByte
  · subst h2
    rfl
  by_cases h3 : b.toNat < 0x20
  · rw [if_neg h1, if_neg h2, if_pos h3]
    show Host.Outcome.next _ = _
    simp [State.pushLine, stuffByte, esc, h3, h1, h2]
  · rw [if_neg h1, if_neg h2, if_neg h3]
    show Host.Outcome.next _ = _
    simp [State.pushLine, stuffByte, esc, h3, h1, h2]

theorem execAll_txRow (x : List Byte) (s : State) :
    execAll (x.map txRow) s = .next { s with txQueue := s.txQueue ++ stuff s.accm x } := by
  induction x generalizing s with
  | nil => simp [execAll]
  | cons b x ih =>
    rw [List.map_cons, execAll_cons_next (exec_txRow b s), ih]
    simp

theorem stuff_append (accm : Word32) (x y : List Byte) : stuff accm (x ++ y) = stuff accm x ++ stuff accm y := by
  simp [stuff]

/-- Every escape of a stuffed list is followed by a byte that is neither a flag nor an escape, whatever comes after the list,
as long as that holds no escape (R155). -/
theorem stuff_escape (accm : Word32) (x t : List Byte) (ht : escByte ∉ t) :
    ∀ u v, stuff accm x ++ t = u ++ escByte :: v → ∃ b w, v = b :: w ∧ b ≠ escByte ∧ b ≠ flagByte := by
  induction x with
  | nil =>
    intro u v h
    simp only [stuff_nil, List.nil_append] at h
    subst h
    simp at ht
  | cons b x ih =>
    intro u v h
    rw [stuff_cons, List.append_assoc] at h
    rcases stuffByte_cases accm b with ⟨he, e⟩ | ⟨he, e⟩ <;> rw [e] at h
    · rcases u with _ | ⟨u0, _ | ⟨u1, u⟩⟩ <;> simp at h
      · exact ⟨_, _, h.symm, (escape_second he).2, (escape_second he).1⟩
      · exact absurd h.2.1 (escape_second he).2
      · exact ih u v h.2.2
    · rcases u with _ | ⟨u0, u⟩ <;> simp at h
      · exact absurd h.1 (not_esc_imp he).2
      · exact ih u v h.2

@[simp] theorem lineTxBytes_append (h h' : List Output) : lineTxBytes (h ++ h') = lineTxBytes h ++ lineTxBytes h' := by
  induction h with
  | nil => rfl
  | cons o h ih => cases o <;> simp [lineTxBytes, ih]

/-- A closing flag sends nothing on the line. -/
@[simp] theorem lineTxBytes_closeOutputs (ctrl : Ctrl) (proto : List ProtoEntry) (esc ovf : Bool) (buf : List Byte) :
    lineTxBytes (closeOutputs ctrl proto esc ovf buf) = [] := by
  unfold closeOutputs
  repeat' split
  all_goals try rfl
  rcases demux_output ctrl proto (receivedContent buf) with ⟨k, info, h, -⟩ | ⟨n, info, h⟩ | ⟨c, h, -⟩ <;> rw [h] <;> rfl

/-- A closing flag hands up at most one frame. -/
theorem frRxContents_closeOutputs (ctrl : Ctrl) (proto : List ProtoEntry) (esc ovf : Bool) (buf : List Byte) :
    (frRxContents (closeOutputs ctrl proto esc ovf buf)).length ≤ 1 := by
  unfold closeOutputs
  repeat' split
  all_goals try (simp [frRxContents]; done)
  rcases demux_output ctrl proto (receivedContent buf) with ⟨k, info, h, -⟩ | ⟨n, info, h⟩ | ⟨c, h, -⟩ <;> rw [h] <;>
    exact Nat.le_refl 1

/-- A line byte leaves the transmit side, the registers and the model's lists alone. -/
theorem lineNext_frame (b : Byte) (s : State) :
    (lineNext b s).config = s.config ∧ (lineNext b s).accm = s.accm ∧ (lineNext b s).ctrl = s.ctrl ∧
    (lineNext b s).proto = s.proto ∧ (lineNext b s).txQueue = s.txQueue ∧ (lineNext b s).held = s.held ∧
    (lineNext b s).input = s.input ∧ (lineNext b s).order = s.order ∧ lineTxBytes (lineNext b s).history = lineTxBytes s.history := by
  unfold lineNext State.appendRx
  repeat' split
  all_goals simp

/-- A line byte makes no held submission acceptable. -/
@[simp] theorem lineNext_awaiting (b : Byte) (s : State) : (lineNext b s).awaiting = s.awaiting := by
  have h := lineNext_frame b s
  simp only [State.awaiting, h]

end Sys2Proof.Machine
end

