-- ==== Sys2Proof/Laws/Step.lean ====
section
/-! SUPPORT. What a step takes, and runs of line records. -/

namespace Sys2Proof.Machine

/-- A step runs the instruction its record decodes to, when no held submission can be accepted. -/
theorem step_of_decode {s : State} {i : Instr} {rest : List Byte} (ha : s.awaiting = false)
    (h : decodeEvent s.input = .ok i rest) : step s = exec i { s with input := rest } := by
  simp [step, nextEvent, recordTurn, h, ha]

/-- Where a held submission can be accepted and `order` gives the step to the record. -/
theorem step_of_record_turn {s : State} {i : Instr} {rest : List Byte} {o : List Turn} (ha : s.awaiting = true)
    (ho : s.order = .record :: o) (h : decodeEvent s.input = .ok i rest) :
    step s = exec i { s with input := rest, order := o } := by
  simp [step, nextEvent, recordTurn, h, ha, ho]

/-- The decoder fails only when there is no byte. -/
theorem decodeEvent_total (bs : List Byte) : bs = [] ∨ ∃ i rest, decodeEvent bs = .ok i rest := by
  cases bs with
  | nil => exact .inl rfl
  | cons c r =>
    right
    unfold decodeEvent
    dsimp only
    repeat' split
    all_goals exact ⟨_, _, rfl⟩

/-- Only event rows are decoded from a record. -/
theorem decodeEvent_format {bs : List Byte} {i : Instr} {rest : List Byte} (h : decodeEvent bs = .ok i rest) :
    i.format = .event := by
  rcases bs with _ | ⟨c, r⟩
  · cases h
  unfold decodeEvent truncatedRecord at h
  dsimp only at h
  repeat' split at h
  all_goals (cases h; rfl)

/-- With nothing presented, a step is the background's (log 4). -/
theorem step_of_no_input {s : State} (h : s.input = []) :
    step s = if s.awaiting then .next s.acceptOldest else if s.txQueue = [] then .next s else exec .txstep s := by
  unfold step nextEvent backgroundEvent
  rw [h]
  simp only [decodeEvent]
  by_cases ha : s.awaiting = true
  · simp only [if_pos ha]
  · by_cases hq : s.txQueue = []
    · simp only [if_neg ha, if_pos hq]
    · simp only [if_neg ha, if_neg hq]

/-- Everything a step can do: it runs a record's instruction, accepts the oldest held submission, moves the transmit engine,
or does nothing. -/
theorem step_cases (s : State) :
    (∃ i rest o, decodeEvent s.input = .ok i rest ∧ step s = exec i { s with input := rest, order := o } ∧
      (s.awaiting = false ∧ o = s.order ∨ s.awaiting = true ∧ s.order = .record :: o)) ∨
    (∃ o, s.awaiting = true ∧ step s = .next (State.acceptOldest { s with order := o }) ∧
      (o = s.order ∨ s.order = .submission :: o)) ∨
    (s.input = [] ∧ s.txQueue ≠ [] ∧ step s = exec .txstep s) ∨
    (s.input = [] ∧ s.txQueue = [] ∧ s.held = [] ∧ step s = .next s) := by
  rcases decodeEvent_total s.input with hi | ⟨i, rest, hi⟩
  · rw [step_of_no_input hi]
    by_cases ha : s.awaiting = true
    · exact .inr (.inl ⟨s.order, ha, by rw [if_pos ha], .inl rfl⟩)
    · have hn := s.not_awaiting_iff.1 (Bool.not_eq_true _ ▸ ha)
      by_cases hq : s.txQueue = []
      · exact .inr (.inr (.inr ⟨hi, hq, hn.resolve_left (absurd hq), by rw [if_neg ha, if_pos hq]⟩))
      · exact .inr (.inr (.inl ⟨hi, hq, by rw [if_neg ha, if_neg hq]⟩))
  · by_cases ha : s.awaiting = true
    · match ho : s.order with
      | .record :: o => exact .inl ⟨i, rest, o, hi, step_of_record_turn ha ho hi, .inr ⟨ha, by simp⟩⟩
      | .submission :: o =>
        exact .inr (.inl ⟨o, ha, by simp [step, nextEvent, recordTurn, hi, ha, ho], .inr rfl⟩)
      | [] =>
        have hs : { s with order := [] } = s := by rw [← ho]
        exact .inr (.inl ⟨[], ha, by rw [hs]; simp [step, nextEvent, recordTurn, hi, ha, ho], .inl rfl⟩)
    · have ha' := Bool.not_eq_true _ ▸ ha
      exact .inl ⟨i, rest, s.order, hi, step_of_decode ha' hi, .inl ⟨ha', rfl⟩⟩

/-- Line byte records run as their bytes do, one step each, and leave what follows them (R87), while no held submission can be
accepted. -/
theorem steps_lineRecords (bs rest : List Byte) (s : State) (ha : s.awaiting = false)
    (hi : s.input = lineRecords bs ++ rest) :
    steps bs.length s = .next { bs.foldl (fun s b => lineNext b s) s with input := rest } := by
  induction bs generalizing s with
  | nil =>
    have : s.input = rest := hi
    subst this
    rfl
  | cons b bs ih =>
    have hd : decodeEvent s.input = .ok (.lineRx b) (lineRecords bs ++ rest) := by
      rw [hi]
      rfl
    have hs : step s = .next (lineNext b { s with input := lineRecords bs ++ rest }) := by
      rw [step_of_decode ha hd, exec_lineRx]
    have hfold : ∀ (bs : List Byte) (s : State) (inp : List Byte),
        bs.foldl (fun s b => lineNext b s) { s with input := inp } =
          { bs.foldl (fun s b => lineNext b s) s with input := inp } := by
      intro bs
      induction bs with
      | nil => exact fun _ _ => rfl
      | cons b bs ih => exact fun s inp => by rw [List.foldl_cons, lineNext_input, ih]; rfl
    rw [List.length_cons, steps, hs]
    dsimp only
    rw [ih _ (by rw [lineNext_awaiting]; exact ha) (by rw [lineNext_input]), lineNext_input, hfold]
    rfl

end Sys2Proof.Machine
end

