-- ==== Sys2Proof/Tests/Slice0.lean ====
section
/-! SUPPORT. The model's own tests. Expected results are the spec's: the vectors of 95_test_vectors.md (V…), its section 7
(host registers), the examples and tables of the rules named. Then one witness theorem per statement with hypotheses. -/

namespace Sys2Proof.Machine

/-- The next state of an outcome, if it is one. -/
def after : Host.Outcome State Fault Refusal → Option State
  | .next s => some s
  | _ => none

/-- The refusal of an outcome, if it is one. -/
def refusal : Host.Outcome State Fault Refusal → Option Refusal
  | .refused r => some r
  | _ => none

/-- What a step added to the empty history of the states below. -/
def shown (o : Host.Outcome State Fault Refusal) : Option (List Output) := (after o).map (fun s => s.history)

/-- `S0` of 95_test_vectors.md. -/
abbrev S0 : State := State.reset

/-- `SF` of 95_test_vectors.md with a receive buffer, an escape bit and an overflow bit. -/
def inFrame (buf : List Byte) (esc : Bool := false) (ovf : Bool := false) : State :=
  { State.reset with rxMode := .frame, rxBuf := buf, rxEsc := esc, rxOvf := ovf }

/-- A state with these CTRL bits, and LCP (0xC021) in entry 0 and IP (0x0021) in entries 2 and 3. -/
def negotiated (acfc pfc : Bool) : State :=
  { inFrame [] with
    ctrl := { acfc := acfc, pfc := pfc }
    proto := [{ valid := true, num := 0xC021#16 }, { valid := false, num := 0x8021#16 },
      { valid := true, num := 0x0021#16 }, { valid := true, num := 0x0021#16 }] }

/-- A state with this transmit queue and these submissions held. -/
def holding (queue : List Byte) (held : List Submission) : State := { S0 with txQueue := queue, held := held }

/-! ### WellFormed refuses an ill-formed term, one per check -/

theorem test_wf_frTx_length : Instr.wf 4 (.frTx (List.replicate 65536 0x00#8)) = false := by
  simp only [Instr.wf, fitsLength, List.length_replicate]
  decide
theorem test_wf_muxTx_length : Instr.wf 4 (.muxTx 0x0021#16 (List.replicate 65536 0x00#8)) = false := by
  simp only [Instr.wf, fitsLength, List.length_replicate]
  decide
theorem test_wf_reserved_known_code : Instr.wf 4 (.reserved (.reservedCode 0x06#8)) = false := by decide
theorem test_wf_truncated_whole_record : Instr.wf 4 (.reserved (.truncated [0x05#8, 0x00#8, 0x01#8, 0x7E#8])) = false := by
  decide
theorem test_wf_huntSkip_flag : Instr.wf 4 (.lrxHuntSkip false 0x7E#8) = false := by decide
theorem test_wf_unesc_flag : Instr.wf 4 (.lrxUnesc 0x7E#8) = false := by decide
theorem test_wf_data_flag_or_escape : Instr.wf 4 (.lrxData 0x7E#8) = false ∧ Instr.wf 4 (.lrxData 0x7D#8) = false := by
  decide
theorem test_wf_ctrl_range : Instr.wf 4 (.txbCtrl 0x20#8) = false := by decide
theorem test_wf_lit_range : Instr.wf 4 (.txbLit 0x1F#8) = false ∧ Instr.wf 4 (.txbLit 0x7D#8) = false ∧
    Instr.wf 4 (.txbLit 0x7E#8) = false := by decide
theorem test_wf_absent_starts_ff03 : Instr.wf 4 (.acAbsent [0xFF#8, 0x03#8, 0x21#8]) = false := by decide
theorem test_wf_comp_even : Instr.wf 4 (.pfComp 0xC0#8 []) = false := by decide
theorem test_wf_full_parity : Instr.wf 4 (.pfFull 0xC1#8 0x21#8 []) = false ∧
    Instr.wf 4 (.pfFull 0xC0#8 0x20#8 []) = false := by decide
theorem test_wf_bad_odd : Instr.wf 4 (.pfBad [0x21#8]) = false ∧ Instr.wf 4 (.pfBad [0x00#8, 0x21#8]) = false := by decide
theorem test_wf_proto_index : Instr.wf 4 (.wrProto 4#4 0#32) = false ∧ Instr.wf 4 (.rdProto 4#4) = false := by decide
theorem test_wf_mapped_offset : Instr.wf 4 (.wrUnmapped 0x4C#8 0#32) = false ∧ Instr.wf 4 (.rdUnmapped 0x08#8) = false := by
  decide

/-! ### Decoding: words written out from 30_encoding.md -/

/-- R75: one record of each event. -/
theorem test_decode_event :
    decodeEvent [0x00#8] = .ok .reset [] ∧
    decodeEvent [0x01#8, 0x7E#8] = .ok (.lineRx 0x7E#8) [] ∧
    decodeEvent [0x02#8] = .ok .txstep [] ∧
    decodeEvent [0x03#8, 0x40#8, 0x80#8, 0x00#8, 0xC0#8, 0x21#8] = .ok (.hostWr 0x40#8 0x8000C021#32) [] ∧
    decodeEvent [0x04#8, 0x08#8] = .ok (.hostRd 0x08#8) [] ∧
    decodeEvent [0x05#8, 0x00#8, 0x02#8, 0x55#8, 0xAA#8] = .ok (.frTx [0x55#8, 0xAA#8]) [] ∧
    decodeEvent [0x06#8, 0xC0#8, 0x21#8, 0x00#8, 0x04#8, 0x02#8, 0x01#8, 0x00#8, 0x04#8] =
      .ok (.muxTx 0xC021#16 [0x02#8, 0x01#8, 0x00#8, 0x04#8]) [] := by decide

/-- V8.4: the refused records. -/
theorem test_decode_reserved :
    decodeEvent [0x07#8] = .ok (.reserved (.reservedCode 0x07#8)) [] ∧
    decodeEvent [0xFF#8] = .ok (.reserved (.reservedCode 0xFF#8)) [] ∧
    decodeEvent [0x03#8, 0x04#8, 0x00#8, 0x00#8] = .ok (.reserved (.truncated [0x03#8, 0x04#8, 0x00#8, 0x00#8])) [] ∧
    decodeEvent [0x05#8, 0x00#8, 0x03#8, 0x55#8, 0xAA#8] =
      .ok (.reserved (.truncated [0x05#8, 0x00#8, 0x03#8, 0x55#8, 0xAA#8])) [] := by decide

/-- R80: keys F, E, b. -/
theorem test_decode_line_rx :
    decodeLineKey [0x00#8, 0x7E#8] = .ok (.lrxHuntFlag false) [] ∧
    decodeLineKey [0x00#8, 0x7D#8] = .ok (.lrxHuntSkip false 0x7D#8) [] ∧
    decodeLineKey [0x02#8, 0x7E#8] = .ok (.lrxClose false) [] ∧
    decodeLineKey [0x03#8, 0x7E#8] = .ok (.lrxClose true) [] ∧
    decodeLineKey [0x02#8, 0x7D#8] = .ok .lrxEsc [] ∧
    decodeLineKey [0x03#8, 0x7D#8] = .ok (.lrxUnesc 0x7D#8) [] ∧
    decodeLineKey [0x02#8, 0x01#8] = .ok (.lrxData 0x01#8) [] ∧
    decodeLineKey [0x04#8, 0x01#8] = .notALineKey := by decide

/-- R81, at the ends of the classes. -/
theorem test_decode_tx_byte :
    txRow 0x7E#8 = .txbFlag ∧ txRow 0x7D#8 = .txbEsc ∧ txRow 0x00#8 = .txbCtrl 0x00#8 ∧ txRow 0x1F#8 = .txbCtrl 0x1F#8 ∧
    txRow 0x20#8 = .txbLit 0x20#8 ∧ txRow 0x7F#8 = .txbLit 0x7F#8 ∧ txRow 0xFF#8 = .txbLit 0xFF#8 := by decide

/-- R83 item 1, and a content shorter than the key. -/
theorem test_decode_content_ac :
    contentRow [0xFF#8, 0x03#8, 0xC0#8] = .acPresent [0xC0#8] ∧ contentRow [0xC0#8, 0x21#8] = .acAbsent [0xC0#8, 0x21#8] ∧
    contentRow [0xFF#8] = .acAbsent [0xFF#8] ∧ contentRow [] = .acAbsent [] := by decide

/-- R83 item 2, and fields with a byte missing. -/
theorem test_decode_content_pf :
    fieldRow [0x21#8, 0x45#8] = .pfComp 0x21#8 [0x45#8] ∧
    fieldRow [0xC0#8, 0x21#8, 0x09#8] = .pfFull 0xC0#8 0x21#8 [0x09#8] ∧
    fieldRow [0x00#8, 0x20#8, 0x45#8] = .pfBad [0x00#8, 0x20#8, 0x45#8] ∧ fieldRow [0x7E#8] = .pfBad [0x7E#8] ∧
    fieldRow [] = .pfBad [] := by decide

/-- R79 with NPROTO = 4: the map, its holes and misaligned offsets. -/
theorem test_decode_host_wr :
    writeRow 4 0x00#8 7#32 = .wrAccm 7#32 ∧ writeRow 4 0x04#8 7#32 = .wrCtrl 7#32 ∧
    writeRow 4 0x08#8 7#32 = .wrStatus 7#32 ∧ writeRow 4 0x40#8 7#32 = .wrProto 0#4 7#32 ∧
    writeRow 4 0x4C#8 7#32 = .wrProto 3#4 7#32 ∧ writeRow 4 0x50#8 7#32 = .wrUnmapped 0x50#8 7#32 ∧
    writeRow 4 0x41#8 7#32 = .wrUnmapped 0x41#8 7#32 ∧ writeRow 4 0x80#8 7#32 = .wrUnmapped 0x80#8 7#32 := by decide

theorem test_decode_host_rd :
    readRow 4 0x00#8 = .rdAccm ∧ readRow 4 0x04#8 = .rdCtrl ∧ readRow 4 0x08#8 = .rdStatus ∧
    readRow 4 0x48#8 = .rdProto 2#4 ∧ readRow 4 0x0C#8 = .rdUnmapped 0x0C#8 ∧ readRow 4 0x01#8 = .rdUnmapped 0x01#8 ∧
    readRow 4 0xC0#8 = .rdUnmapped 0xC0#8 ∧ readRow 16 0x7C#8 = .rdProto 15#4 := by decide

/-- Table words, and the very next step runs what they stand for. -/
theorem test_table_word :
    decodeTableWord 8 0x02 = some .txstep ∧ decodeTableWord 16 0x0327 = some (.wrUnmapped 0x27#8 0#32) ∧
    decodeTableWord 16 0x027D = some .lrxEsc ∧ decodeTableWord 16 0xFF03 = some (.acPresent []) ∧
    decodeTableWord 8 0x7E = some .txbFlag := by decide

theorem test_fetch_word_host_rd : shown (step (S0.withFetchWord 16 0x0408)) = some [.hostRd 0x00000002#32] := by
  decide

theorem test_fetch_word_content : shown (step (S0.withFetchWord 16 0xFF03)) =
    some [.frRx [0xFF#8, 0x03#8], .discard .short] := by decide +kernel

/-! ### One step of each event -/

/-- V8.1. -/
theorem test_reset :
    after (exec .reset { negotiated true true with rxEsc := true, rxBuf := [0x41#8], txQueue := [0x7E#8] }) = some S0 := by
  decide

/-- V5.3, the closing flag. -/
theorem test_line_rx_close : after (exec (.lineRx 0x7E#8) (inFrame [0xFF#8, 0x03#8, 0x55#8, 0xAA#8, 0x77#8, 0x71#8])) =
    some { inFrame [] with history := [.frRx [0xFF#8, 0x03#8, 0x55#8, 0xAA#8], .discard .pfcOff] } := by decide +kernel

/-- V5.1: in HUNT an escape is a byte like any other. -/
theorem test_line_rx_hunt : after (exec (.lineRx 0x7D#8) S0) = some S0 := by decide

/-- R103, example. -/
theorem test_txstep : after (exec .txstep { S0 with txQueue := [0x55#8, 0x7E#8] }) =
    some { S0 with txQueue := [0x7E#8], history := [.lineTx 0x55#8] } := by decide

/-- V1.1, V1.3. -/
theorem test_fr_tx : (after (exec (.frTx [0x55#8, 0xAA#8]) S0)).map (fun s => s.txQueue) =
    some [0x7E#8, 0xFF#8, 0x7D#8, 0x23#8, 0x55#8, 0xAA#8, 0x77#8, 0x71#8, 0x7E#8] := by decide +kernel

/-- V4.1 row 6: the FCS is stuffed as the content is. -/
theorem test_fr_tx_fcs_stuffed : (after (exec (.frTx [0x7E#8, 0x7D#8]) S0)).map (fun s => s.txQueue) =
    some [0x7E#8, 0xFF#8, 0x7D#8, 0x23#8, 0x7D#8, 0x5E#8, 0x7D#8, 0x5D#8, 0xDE#8, 0x7D#8, 0x34#8, 0x7E#8] := by
  decide +kernel

/-- V6.2 row 4. -/
theorem test_mux_tx_compressed : (after (exec (.muxTx 0x0021#16 [0x45#8]) { negotiated true true with accm := 0#32 })).map
    (fun s => s.txQueue) = some [0x7E#8, 0x21#8, 0x45#8, 0x05#8, 0x20#8, 0x7E#8] := by decide +kernel

/-- V6.2 row 6: an even number keeps its two bytes. -/
theorem test_mux_tx_even : (after (exec (.muxTx 0x0020#16 []) (negotiated false true))).map (fun s => s.txQueue) =
    some [0x7E#8, 0xFF#8, 0x7D#8, 0x23#8, 0x7D#8, 0x20#8, 0x20#8, 0x6A#8, 0xF7#8, 0x7E#8] := by decide +kernel

/-- V8.4. -/
theorem test_reserved : refusal (step { S0 with input := [0x07#8] }) = some (.reservedEventCode 0x07#8) ∧
    refusal (step { S0 with input := [0x03#8, 0x04#8, 0x00#8, 0x00#8] }) =
      some (.truncatedRecord [0x03#8, 0x04#8, 0x00#8, 0x00#8]) := by decide

/-- R62: on one port the older frame goes first, and the younger holds. -/
theorem test_fr_tx_behind_held : after (exec (.frTx [0x02#8]) (holding [] [.fr [0x01#8]])) =
    some (holding [0x7E#8, 0xFF#8, 0x7D#8, 0x23#8, 0x7D#8, 0x21#8, 0xDE#8, 0x3B#8, 0x7E#8] [.fr [0x02#8]]) := by
  decide +kernel

/-- R102: a held frame is accepted at the first step at which the queue is empty, before the record that waits. -/
theorem test_held_accepted_first :
    (after (step { holding [] [.fr [0x01#8]] with input := [0x03#8, 0x04#8, 0x00#8, 0x00#8, 0x00#8, 0x01#8] })).map
      (fun s => (s.txQueue, s.held, s.ctrl.acfc)) =
    some ([0x7E#8, 0xFF#8, 0x7D#8, 0x23#8, 0x7D#8, 0x21#8, 0xDE#8, 0x3B#8, 0x7E#8], [], false) := by decide +kernel

/-- V4.2: the host reads 0x00000002 between the drain and the acceptance. -/
theorem test_read_before_acceptance :
    shown (step { holding [] [.fr [0x01#8]] with input := [0x04#8, 0x08#8], order := [.record] }) =
      some [.hostRd 0x00000002#32] := by decide

/-! ### One step of each inner row -/

/-- V5.2 and R121. -/
theorem test_lrx_hunt_flag : after (exec (.lrxHuntFlag false) S0) = some (inFrame []) := by decide
/-- V5.1. -/
theorem test_lrx_hunt_skip : after (exec (.lrxHuntSkip false 0x41#8) S0) = some S0 := by decide
/-- V5.7: received FCS 0x7277. -/
theorem test_lrx_close_bad_fcs : shown (exec (.lrxClose false)
    (inFrame [0xFF#8, 0x03#8, 0x55#8, 0xAA#8, 0x77#8, 0x72#8])) = some [.discard .badFcs] := by decide +kernel
/-- V5.5 and R246: the empty content is good, and M discards it. -/
theorem test_lrx_close_empty_content : shown (exec (.lrxClose false) (inFrame [0x00#8, 0x00#8])) =
    some [.frRx [], .discard .noAc] := by decide
/-- R123, example. -/
theorem test_lrx_esc : after (exec .lrxEsc (inFrame [0xFF#8])) = some (inFrame [0xFF#8] true) := by decide
/-- V5.11. -/
theorem test_lrx_unesc : after (exec (.lrxUnesc 0x7D#8) (inFrame [] true)) = some (inFrame [0x5D#8]) := by decide
/-- V5.14: the fifth byte of a buffer of four. -/
theorem test_lrx_data_overflow :
    after (exec (.lrxData 0x05#8) { inFrame [1#8, 2#8, 3#8, 4#8] with config := { Config.reference with rxBufLen := 4 } }) =
      some { inFrame [1#8, 2#8, 3#8, 4#8] false true with config := { Config.reference with rxBufLen := 4 } } := by
  decide
/-- V2.1. -/
theorem test_txb_flag : after (exec .txbFlag { S0 with accm := 0#32 }) =
    some { S0 with accm := 0#32, txQueue := [0x7D#8, 0x5E#8] } := by decide
theorem test_txb_esc : after (exec .txbEsc { S0 with accm := 0#32 }) =
    some { S0 with accm := 0#32, txQueue := [0x7D#8, 0x5D#8] } := by decide
theorem test_txb_ctrl_mapped : after (exec (.txbCtrl 0x13#8) { S0 with accm := 0x000A0000#32 }) =
    some { S0 with accm := 0x000A0000#32, txQueue := [0x7D#8, 0x33#8] } := by decide
theorem test_txb_ctrl_unmapped : after (exec (.txbCtrl 0x1F#8) { S0 with accm := 0x000A0000#32 }) =
    some { S0 with accm := 0x000A0000#32, txQueue := [0x1F#8] } := by decide
theorem test_txb_lit : after (exec (.txbLit 0x9E#8) S0) = some { S0 with txQueue := [0x9E#8] } := by decide
/-- V6.3 row `FF 03 FF 03 21`: one `FF 03` is stripped. -/
theorem test_ac_present : shown (exec (.acPresent [0xFF#8, 0x03#8, 0x21#8]) (negotiated true true)) =
    some [.muxRej 0x00FF#16 [0x03#8, 0x21#8]] := by decide
/-- V6.3 rows 2 and 3. -/
theorem test_ac_absent : shown (exec (.acAbsent [0xC0#8, 0x21#8, 0x09#8]) (negotiated false false)) = some [.discard .noAc] := by
  decide
theorem test_ac_absent_negotiated : shown (exec (.acAbsent [0xC0#8, 0x21#8, 0x09#8]) (negotiated true false)) =
    some [.muxRx 0 [0x09#8]] := by decide
/-- V6.3 rows 7 and 8. -/
theorem test_pf_comp_off : shown (exec (.pfComp 0x21#8 [0x45#8]) (negotiated false false)) = some [.discard .pfcOff] := by
  decide
theorem test_pf_comp : shown (exec (.pfComp 0x21#8 [0x45#8]) (negotiated false true)) = some [.muxRx 2 [0x45#8]] := by
  decide
/-- V6.3: an invalid entry never matches. -/
theorem test_pf_full_invalid_entry : shown (exec (.pfFull 0x80#8 0x21#8 [0x01#8]) (negotiated false false)) =
    some [.muxRej 0x8021#16 [0x01#8]] := by decide
theorem test_pf_bad : shown (exec (.pfBad [0x00#8, 0x20#8, 0x45#8]) S0) = some [.discard .badProto] := by decide
/-- V5.13. -/
theorem test_pf_bad_short : shown (exec (.pfBad [0x7E#8]) S0) = some [.discard .short] := by decide

/-! ### Host registers: 95_test_vectors.md section 7 -/

theorem test_wr_accm : after (exec (.wrAccm 0x12345678#32) S0) = some { S0 with accm := 0x12345678#32 } := by decide
theorem test_wr_ctrl : after (exec (.wrCtrl 0x00000002#32) S0) = some { S0 with ctrl := { acfc := false, pfc := true } } := by
  decide
theorem test_wr_status : after (exec (.wrStatus 0#32) { S0 with txQueue := [0x7E#8] }) =
    some { S0 with txQueue := [0x7E#8] } := by decide
theorem test_wr_proto : after (exec (.wrProto 0#4 0xFFFFC021#32) S0) =
    some { S0 with proto := { valid := true, num := 0xC021#16 } :: List.replicate 3 { valid := false, num := 0#16 } } := by
  decide
theorem test_wr_unmapped : after (exec (.hostWr 0x50#8 0x80000021#32) S0) = some S0 := by decide
theorem test_rd_accm : shown (exec .rdAccm S0) = some [.hostRd 0xFFFFFFFF#32] := by decide
theorem test_rd_ctrl : shown (exec .rdCtrl (negotiated false true)) = some [.hostRd 0x00000002#32] := by decide
/-- R218, example. -/
theorem test_rd_status : shown (exec .rdStatus { inFrame [] with txQueue := [0x7E#8] }) = some [.hostRd 0x00000001#32] := by
  decide
theorem test_rd_proto : shown (exec (.rdProto 0#4) (negotiated false false)) = some [.hostRd 0x8000C021#32] := by
  decide
theorem test_rd_proto_invalid : shown (exec (.rdProto 1#4) (negotiated false false)) = some [.hostRd 0x00008021#32] := by
  decide
theorem test_rd_unmapped : shown (exec (.hostRd 0x41#8) (negotiated false false)) = some [.hostRd 0x00000000#32] := by
  decide

/-! ### Functions -/

/-- V2.2. -/
theorem test_unstuff : unstuff [0x7D#8, 0x5E#8, 0x7D#8, 0x5D#8] = ([0x7E#8, 0x7D#8], false) ∧
    unstuff [0x41#8, 0x7D#8] = ([0x41#8], true) ∧ unstuff [0x7D#8, 0x7D#8] = ([0x5D#8], false) := by decide

/-- V6.1. -/
theorem test_pfield : protocolField 0x00FD#16 true = [0xFD#8] ∧ protocolField 0x00FE#16 true = [0x00#8, 0xFE#8] ∧
    protocolField 0x00FF#16 true = [0x00#8, 0xFF#8] ∧ protocolField 0x0021#16 false = [0x00#8, 0x21#8] := by decide

/-! ### Witnesses: states and operands that meet the hypotheses of each statement -/

theorem test_witness_ResetSetsEveryField : exec .reset (inFrame [0x41#8]) = .next S0 := rfl

theorem test_witness_ResetCutsTrafficOff : exec .reset (inFrame [0x41#8]) = .next S0 ∧ flagByte ∉ [0x41#8, 0x7D#8, 0x03#8] ∧
    (inFrame [0x41#8]).held = [] ∧
    exec .reset (holding [0x7E#8] [.fr []]) = .next (holding [] [.fr []]) ∧
    (holding [0x7E#8] [.fr []]).held = .fr [] :: [] ∧ (holding [0x7E#8] [.fr []]).order = [] :=
  ⟨rfl, by decide, rfl, rfl, rfl, rfl⟩

theorem test_witness_RefusedRecordsTakeNoStep :
    (∃ s : State, (s.txQueue ≠ [] ∨ s.held = []) ∧ s.input = 0x07#8 :: [] ∧ 7 ≤ (0x07#8).toNat) ∧
    (∃ s : State, (s.txQueue ≠ [] ∨ s.held = []) ∧ s.input = 0xFF#8 :: [] ∧ 7 ≤ (0xFF#8).toNat) ∧
    (∃ s : State, (s.txQueue ≠ [] ∨ s.held = []) ∧ recordCut s.input = true) ∧ recordCut [0x01#8] = true :=
  ⟨⟨{ S0 with input := [0x07#8] }, .inr rfl, rfl, by decide⟩,
    ⟨{ holding [0x7E#8] [.fr []] with input := [0xFF#8] }, .inl (by decide), rfl, by decide⟩,
    ⟨{ S0 with input := [0x05#8, 0x00#8, 0x01#8] }, .inr rfl, by decide⟩, by decide⟩

theorem test_witness_DecodeInvertsEncode : Instr.wf 4 (.muxTx 0xC021#16 [0x7E#8]) = true ∧ Instr.wf 4 (.wrProto 3#4 1#32) = true ∧
    Instr.wf 4 (.reserved (.truncated [0x01#8])) = true ∧ Instr.wf 4 (.acAbsent []) = true := by decide

theorem test_witness_EventRecordsDelimitThemselves : (Instr.frTx [0x7E#8]).format = .event ∧
    Instr.wf 4 (.frTx [0x7E#8]) = true ∧ ∀ r, Instr.frTx [0x7E#8] ≠ .reserved (.truncated r) :=
  ⟨rfl, by decide, fun _ h => nomatch h⟩

theorem test_witness_StepRunsTheDecodedRecord :
    (∃ s : State, decodeEvent s.input = .ok (.lineRx 0x7E#8) [0x02#8] ∧ (s.txQueue ≠ [] ∨ s.held = [])) ∧
    (∃ s : State, decodeEvent s.input = .ok (.hostRd 0x08#8) [] ∧ s.txQueue = [] ∧ s.held ≠ [] ∧ s.order = .record :: []) :=
  ⟨⟨{ S0 with input := [0x01#8, 0x7E#8, 0x02#8] }, by decide, .inr rfl⟩,
    ⟨{ holding [] [.fr []] with input := [0x04#8, 0x08#8], order := [.record] }, by decide, rfl, by decide, rfl⟩⟩

theorem test_witness_OffsetSelectsHostRow :
    ((0x4C#8).extractLsb' 6 2 = 0b01#2 ∧ (0x4C#8).extractLsb' 0 2 = 0b00#2 ∧
      ((0x4C#8).extractLsb' 2 4).toNat < S0.config.nproto) ∧
    ((0x50#8) ≠ 0x00#8 ∧ (0x50#8) ≠ 0x04#8 ∧ (0x50#8) ≠ 0x08#8 ∧ ¬ ((0x50#8).extractLsb' 6 2 = 0b01#2 ∧
      (0x50#8).extractLsb' 0 2 = 0b00#2 ∧ ((0x50#8).extractLsb' 2 4).toNat < S0.config.nproto)) := by decide

theorem test_witness_MisalignedAccessIsIgnored : (0x01#8).extractLsb' 0 2 ≠ 0b00#2 ∧ (0x43#8).extractLsb' 0 2 ≠ 0b00#2 := by
  decide

theorem test_witness_HostWriteRowsWriteTheirFields :
    ((3#4).toNat < S0.config.nproto ∧ (0x4C#8).toNat = 0x40 + 4 * (3#4).toNat) ∧
    ((0x50#8) ≠ 0x00#8 ∧ (0x50#8) ≠ 0x04#8 ∧ (0x50#8) ≠ 0x08#8 ∧ ∀ i, i < S0.config.nproto → (0x50#8).toNat ≠ 0x40 + 4 * i) ∧
    ((0x0C#8) ≠ 0x08#8 ∧ ∀ i, i < S0.config.nproto → (0x0C#8).toNat ≠ 0x40 + 4 * i) := by decide

theorem test_witness_HostReadRowsReturnTheirRegisters :
    ((3#4).toNat < S0.config.nproto ∧ (0x4C#8).toNat = 0x40 + 4 * (3#4).toNat ∧
      S0.proto[(3#4).toNat]? = some { valid := false, num := 0x0000#16 }) ∧
    ((0x80#8) ≠ 0x00#8 ∧ (0x80#8) ≠ 0x04#8 ∧ (0x80#8) ≠ 0x08#8 ∧
      ∀ i, i < S0.config.nproto → (0x80#8).toNat ≠ 0x40 + 4 * i) := by decide

theorem test_witness_HostRowsDoNotTestTheirFieldAgain : S0.config.nproto ≤ (4#4).toNat ∧ S0.config.nproto ≤ (15#4).toNat := by
  decide

theorem test_witness_HostReadAfterWrite : S0.proto.length = S0.config.nproto ∧
    exec (.hostWr 0x00#8 5#32) S0 = .next { S0 with accm := 5#32 } := ⟨by decide, rfl⟩

theorem test_witness_HostAccessesHaveNoOtherSideEffect : S0.proto.length = S0.config.nproto ∧
    exec (.hostWr 0x00#8 5#32) S0 = .next { S0 with accm := 5#32 } ∧
    exec (.hostRd 0x00#8) S0 = .next { S0 with history := [.hostRd 0xFFFFFFFF#32] } ∧
    ((Instr.lineRx flagByte).format = .event ∧ exec (.lineRx flagByte) S0 = .next (inFrame []) ∧
      (inFrame []).rxMode ≠ S0.rxMode) := ⟨by decide, rfl, rfl, rfl, rfl, by decide⟩

theorem test_witness_OnlyResetAndHostWritesChangeRegisters : exec .txstep S0 = .next S0 ∧ Instr.txstep ≠ .reset ∧
    (∀ off d, Instr.txstep ≠ .hostWr off d) ∧ Instr.txstep.format ≠ .hostWr :=
  ⟨rfl, by decide, fun _ _ h => (nomatch h), by decide⟩

theorem test_witness_RegisterBaseIsNotObservable : step { S0 with input := [0x01#8, 0x7E#8] } = .next (inFrame []) := rfl

theorem test_witness_TransmitByteRowsStuff : (0x00#8).toNat < 0x20 ∧ (0x1F#8).toNat < 0x20 := by decide

theorem test_witness_TransmitRowsBuildTheLineForm : ({ S0 with txQueue := [0x7E#8] } : State).txQueue = [0x7E#8] := rfl

theorem test_witness_StuffingLaws : stuff 0#32 [0x41#8, 0x7D#8] = [0x41#8] ++ escByte :: [0x5D#8] := by decide

theorem test_witness_CrcFollowsItsRules : (0x0001#16).getLsbD 0 = true ∧ (0x8000#16).getLsbD 0 = false := by decide

theorem test_witness_CrcIsLinearAndTellsTheLastByte : (0x00#8) ≠ 0x80#8 := by decide

theorem test_witness_IdleTransmitterAcceptsPayload : S0.txQueue = [] ∧ (∀ y, Submission.fr y ∉ S0.held) ∧
    (exec (.frTx []) S0 = .next { S0 with txQueue := lineForm [] 0xFFFFFFFF#32 false }) ∧
    (holding [] [.mux 0x0021#16 [], .fr [0x01#8], .fr []]).held = [.mux 0x0021#16 []] ++ .fr [0x01#8] :: [.fr []] ∧
    (∀ z, Submission.fr z ∉ [Submission.mux 0x0021#16 []]) :=
  ⟨rfl, fun _ h => (nomatch h), rfl, rfl, fun _ => by simp⟩

theorem test_witness_IdleTransmitterAcceptsInformation : S0.txQueue = [] ∧ (∀ m i, Submission.mux m i ∉ S0.held) ∧
    (exec (.muxTx 0x0021#16 []) S0 = .next { S0 with txQueue := lineForm [0x00#8, 0x21#8] 0xFFFFFFFF#32 false }) ∧
    (holding [] [.fr [], .mux 0x0021#16 []]).held = [.fr []] ++ .mux 0x0021#16 [] :: [] ∧
    (∀ m i, Submission.mux m i ∉ [Submission.fr []]) :=
  ⟨rfl, fun _ _ h => (nomatch h), rfl, rfl, fun _ _ => by simp⟩

theorem test_witness_BusyTransmitterHoldsSubmission : ({ S0 with txQueue := [0x7E#8] } : State).txQueue ≠ [] := by decide

theorem test_witness_TxstepEmitsOneByte : S0.txQueue = [] ∧ ({ S0 with txQueue := [0x7E#8] } : State).txQueue = 0x7E#8 :: [] :=
  ⟨rfl, rfl⟩

theorem test_witness_FrameInTransmissionKeepsItsBytes :
    (∀ i ∈ [Instr.hostWr 0x00#8 0#32, .txstep],
      i = .txstep ∨ (∃ b, i = .lineRx b) ∨ (∃ off d, i = .hostWr off d) ∨ (∃ off, i = .hostRd off)) ∧
    execAll [.hostWr 0x00#8 0#32, .txstep] { S0 with txQueue := [0x7E#8] } =
      .next { S0 with accm := 0#32, history := [.lineTx 0x7E#8] } := by
  refine ⟨fun i hi => ?_, rfl⟩
  simp only [List.mem_cons, List.not_mem_nil, or_false] at hi
  rcases hi with rfl | rfl
  · exact .inr (.inr (.inl ⟨_, _, rfl⟩))
  · exact .inl rfl

theorem test_witness_LineFormShape : lineForm [] 0x00000001#32 true = [0x7E#8] ++ escByte :: [0x20#8, 0x7D#8, 0x20#8, 0x7E#8] ∧
    (0x00000000#32).getLsbD 0 = false := by decide

theorem test_witness_HoldIsLiftedOnlyByTxstepOrReset :
    exec .txstep { S0 with txQueue := [0x7E#8] } = .next { S0 with history := [.lineTx 0x7E#8] } ∧
    ({ S0 with txQueue := [0x7E#8] } : State).txQueue ≠ [] ∧
    ({ S0 with history := [.lineTx 0x7E#8] } : State).txQueue ≠ ({ S0 with txQueue := [0x7E#8] } : State).txQueue :=
  ⟨rfl, by decide, by decide⟩

theorem test_witness_HeldSubmissionIsKept : (holding [0x7E#8] [.fr []]).txQueue ≠ [] ∧
    exec (.muxTx 0x0021#16 []) (holding [0x7E#8] [.fr []]) = .next (holding [0x7E#8] [.fr [], .mux 0x0021#16 []]) :=
  ⟨by decide, rfl⟩

theorem test_witness_HeldSubmissionIsAcceptedAtFirstIdleStep :
    (∃ s : State, s.txQueue = [] ∧ s.held = .fr [] :: [.mux 0x0021#16 []] ∧ s.order = [] ∧ s.input ≠ []) ∧
    (∃ s : State, s.txQueue = [] ∧ s.held = .mux 0x0021#16 [] :: [] ∧ s.order = [.record] ∧ s.input = []) ∧
    (∃ s : State, s.txQueue = [] ∧ s.held = .fr [] :: [] ∧ s.order = .submission :: [.record] ∧ s.input ≠ []) :=
  ⟨⟨{ holding [] [.fr [], .mux 0x0021#16 []] with input := [0x02#8] }, rfl, rfl, rfl, by decide⟩,
    ⟨{ holding [] [.mux 0x0021#16 []] with order := [.record] }, rfl, rfl, rfl, rfl⟩,
    ⟨{ holding [] [.fr []] with input := [0x02#8], order := [.submission, .record] }, rfl, rfl, rfl, by decide⟩⟩

theorem test_witness_EachPortKeepsItsOrder :
    exec (.frTx [0x02#8]) (holding [] [.fr [0x01#8]]) =
      .next (holding (lineForm [0x01#8] 0xFFFFFFFF#32 false) [.fr [0x02#8]]) ∧
    step { holding [0x7E#8] [.fr [0x01#8]] with input := [0x05#8, 0x00#8, 0x01#8, 0x01#8] } =
      .next (holding [0x7E#8] [.fr [0x01#8], .fr [0x01#8]]) := ⟨rfl, rfl⟩

theorem test_witness_HeldSubmissionIsAcceptedAfterDrain :
    ({ S0 with txQueue := [0x7E#8], held := [.fr []] } : State).input = [] ∧
    ({ S0 with txQueue := [0x7E#8], held := [.fr []] } : State).held = .fr [] :: [] := ⟨rfl, rfl⟩

theorem test_witness_LineByteRunsItsRow : S0.rxMode = .hunt ∧ (inFrame []).rxMode = .frame ∧ (inFrame []).rxEsc = false ∧
    (inFrame [] true).rxMode = .frame ∧ (inFrame [] true).rxEsc = true ∧ (0x7D#8) ≠ 0x7E#8 ∧ (0x7F#8) ≠ 0x7E#8 ∧
    (0x7F#8) ≠ 0x7D#8 := by decide

theorem test_witness_FlagSkipAndEscapeRows : S0.rxMode = .hunt ∧ (0x7D#8) ≠ 0x7E#8 ∧ (inFrame []).rxMode = .frame ∧
    (inFrame []).rxEsc = false := by decide

theorem test_witness_UnescapedAndLiteralBytesAreStored :
    ((inFrame [] true).rxMode = .frame ∧ (inFrame [] true).rxEsc = true ∧ (0x7D#8) ≠ 0x7E#8) ∧
    ((inFrame []).rxMode = .frame ∧ (inFrame []).rxEsc = false ∧ (0x01#8) ≠ 0x7E#8 ∧ (0x01#8) ≠ 0x7D#8) ∧
    (inFrame [1#8, 2#8, 3#8]).rxBuf.length < ({ inFrame [] with config := ⟨4, 4, 0⟩ } : State).config.rxBufLen ∧
    ({ inFrame [] with config := ⟨4, 4, 0⟩ } : State).config.rxBufLen ≤ (inFrame [1#8, 2#8, 3#8, 4#8]).rxBuf.length := by decide

theorem test_witness_ClosingFlagDecidesInOrder :
    (inFrame [] true).rxMode = .frame ∧ (inFrame [] true).rxEsc = true ∧
    ((inFrame [0x41#8] false true).rxEsc = false ∧ (inFrame [0x41#8] false true).rxOvf = true) ∧
    ((inFrame []).rxEsc = false ∧ (inFrame []).rxOvf = false ∧ (inFrame []).rxBuf = []) ∧
    (inFrame [0x41#8]).rxBuf = [0x41#8] ∧
    ((inFrame [0x00#8, 0x00#8]).rxBuf = [] ++ [0x00#8, 0x00#8] ∧ fcs16 [] = (0x00#8) ++ (0x00#8)) ∧
    ((inFrame [0x00#8, 0x01#8]).rxBuf = [] ++ [0x00#8, 0x01#8] ∧ fcs16 [] ≠ (0x01#8) ++ (0x00#8)) := by decide

theorem test_witness_GoodFrameRunsItsContentRow : (inFrame [0x00#8, 0x00#8]).rxEsc = false ∧
    (inFrame [0x00#8, 0x00#8]).rxOvf = false ∧ (inFrame [0x00#8, 0x00#8]).rxBuf = [] ++ fcsBytes [] := by decide

theorem test_witness_ReceivePathIgnoresAccm :
    execAll ([0x7E#8, 0x01#8].map .lineRx) S0 = .next (inFrame [0x01#8]) ∧
    (inFrame [1#8, 2#8]).rxMode = .frame ∧ (inFrame [1#8, 2#8]).rxEsc = false ∧ (0x1F#8).toNat < 0x20 ∧
    (inFrame [1#8, 2#8]).rxBuf.length < (inFrame [1#8, 2#8]).config.rxBufLen := ⟨rfl, rfl, rfl, by decide, by decide⟩

theorem test_witness_LineRowsRunFromEveryState : S0.rxBuf.length < S0.config.rxBufLen ∧
    ({ inFrame [1#8, 2#8, 3#8, 4#8] with config := ⟨4, 4, 0⟩ } : State).config.rxBufLen ≤
      (inFrame [1#8, 2#8, 3#8, 4#8]).rxBuf.length := by decide

theorem test_witness_ChunkingIsNotVisible : S0.input = [] ∧ (S0.txQueue ≠ [] ∨ S0.held = []) ∧
    stepChunks [[0x7E#8], [], [0x01#8, 0x7D#8]] S0 = .next (inFrame [0x01#8] true) := ⟨rfl, .inr rfl, rfl⟩

theorem test_witness_ReceiverComputesUnstuff : (inFrame []).AfterFlag ∧ flagByte ∉ [0x7D#8, 0x41#8, 0x7D#8] ∧
    (unstuff [0x7D#8, 0x41#8, 0x7D#8]).1.length ≤ (inFrame []).config.rxBufLen ∧ (0x41#8) ≠ 0x7D#8 :=
  ⟨⟨rfl, rfl, rfl, rfl⟩, by decide, by decide, by decide⟩

theorem test_witness_FlagsDelimitFrames : (inFrame []).AfterFlag ∧ flagByte ∉ [0x7D#8, 0x20#8, 0x00#8] ∧
    unstuff [0x7D#8, 0x20#8, 0x00#8] = ([] ++ fcsBytes [], false) ∧ flagByte ∉ [0x00#8, 0x00#8] ∧
    unstuff [0x00#8, 0x00#8] = ([] ++ fcsBytes [], false) ∧
    ([] : List Byte).length + 2 ≤ (inFrame []).config.rxBufLen ∧ S0.rxMode = .hunt ∧
    (unstuff [0x7D#8, 0x20#8, 0x00#8]).1.length ≤ (inFrame []).config.rxBufLen ∧
    execAll ([0x41#8].map .lineRx) (inFrame []) = .next (inFrame [0x41#8]) :=
  ⟨⟨rfl, rfl, rfl, rfl⟩, by decide, by decide, by decide, by decide, by decide, rfl, by decide, rfl⟩

theorem test_witness_HdlcRoundTrip :
    (txContent [0x11#8, 0x22#8] true).length + 2 ≤ ({ inFrame [] with config := ⟨4, 4, 0⟩ } : State).config.rxBufLen ∧
    (∃ s : State, s.AfterFlag ∧ (s.txQueue ≠ [] ∨ s.held = []) ∧
      s.input = lineRecords ((lineForm [] 0#32 true).drop 1) ++ []) ∧
    (∃ s : State, s.rxMode = .hunt ∧ (s.txQueue ≠ [] ∨ s.held = []) ∧
      s.input = lineRecords (lineForm [] 0#32 true) ++ [0x02#8]) :=
  ⟨by decide, ⟨{ inFrame [] with input := _ }, ⟨rfl, rfl, rfl, rfl⟩, .inr rfl, rfl⟩,
    ⟨{ S0 with input := _ }, rfl, .inr rfl, rfl⟩⟩

theorem test_witness_DemuxFollowsItsStages : (∀ p, ([] : List Byte) ≠ 0xFF#8 :: 0x03#8 :: p) ∧
    (∀ p, [0xFF#8] ≠ 0xFF#8 :: 0x03#8 :: p) ∧ (negotiated true false).ctrl.acfc = true ∧
    (negotiated false true).ctrl.acfc = false ∧ (negotiated true false).ctrl.pfc = false ∧
    (negotiated false true).ctrl.pfc = true ∧ (0x21#8).getLsbD 0 = true ∧ (0xC0#8).getLsbD 0 = false ∧
    (0x20#8).getLsbD 0 = false :=
  ⟨fun _ h => (nomatch h), fun _ h => (nomatch h), rfl, rfl, rfl, rfl, by decide, by decide, by decide⟩

theorem test_witness_AddressControlStage : (negotiated true false).ctrl.acfc = true ∧
    (negotiated false false).ctrl.acfc = false ∧ ∀ p, [0xFF#8] ≠ 0xFF#8 :: 0x03#8 :: p :=
  ⟨rfl, rfl, fun _ h => nomatch h⟩

theorem test_witness_ProtocolFieldStage : (negotiated false false).ctrl.pfc = false ∧ (negotiated false true).ctrl.pfc = true ∧
    ([0x00#8] : List Byte).length < 2 ∧ 2 ≤ ([0x00#8, 0x20#8] : List Byte).length ∧ (0x21#8).getLsbD 0 = true ∧
    (0xC0#8).getLsbD 0 = false ∧ (0x20#8).getLsbD 0 = false := by decide

theorem test_witness_LeastMatchingHandlerReceives :
    (∃ h : 2 < (negotiated false false).proto.length, (negotiated false false).proto[2].valid = true ∧
      (negotiated false false).proto[2].num = 0x0021#16) ∧
    (∀ e ∈ (negotiated false false).proto, ¬ (e.valid = true ∧ e.num = 0x8021#16)) := by decide

theorem test_witness_MuxWritesNoState : (Instr.acAbsent []).format = .contentAc ∧ (Instr.pfBad []).format = .contentPf :=
  ⟨rfl, rfl⟩

theorem test_witness_MuxRoundTrip : (negotiated false true).txQueue = [] ∧
    (∀ m i, Submission.mux m i ∉ (negotiated false true).held) ∧ (negotiated false true).AfterFlag ∧
    (0xC021#16).getLsbD 0 = true ∧ (0xC021#16).getLsbD 8 = false ∧
    (after (exec (.muxTx 0xC021#16 []) (negotiated false true))).isSome = true ∧
    (txContent (protocolField 0xC021#16 true ++ []) false).length + 2 ≤ (negotiated false true).config.rxBufLen :=
  ⟨rfl, fun _ _ h => (nomatch h), ⟨rfl, rfl, rfl, rfl⟩, by decide, by decide, by decide, by decide⟩

theorem test_witness_MalformedNumbersFailTheRoundTrip : (negotiated true true).txQueue = [] ∧
    (∀ m i, Submission.mux m i ∉ (negotiated true true).held) ∧ (negotiated true true).AfterFlag ∧
    (after (exec (.muxTx 0x0020#16 []) (negotiated true true))).isSome = true ∧
    ((0x0020#16).getLsbD 8 = false ∧ (0x0020#16).getLsbD 0 = false) ∧
    ((0xFF03#16).getLsbD 8 = true ∧ (negotiated false false).ctrl.acfc = false ∧ (negotiated false false).ctrl.pfc = false) ∧
    ((0xFF05#16).getLsbD 8 = true ∧ (0xFF05#16) ≠ 0xFF03#16 ∧ (negotiated true true).ctrl.pfc = true) ∧
    (txContent (protocolField 0xFF05#16 true ++ []) true).length + 2 ≤ (negotiated true true).config.rxBufLen :=
  ⟨rfl, fun _ _ h => (nomatch h), ⟨rfl, rfl, rfl, rfl⟩, by decide, by decide, by decide, by decide, by decide⟩

theorem test_witness_InvariantHoldsAtReset : Config.wf ⟨4, 3, 0⟩ = true ∧ Config.wf ⟨1506, 16, 0x1000⟩ = true := by decide

theorem test_witness_EveryStepKeepsTheInvariant : (inFrame [0x41#8]).Inv ∧
    step { inFrame [0x41#8] with input := [0x01#8, 0x7D#8] } = .next (inFrame [0x41#8] true) ∧
    ({ inFrame [0x41#8] with input := [0x01#8, 0x7D#8] } : State).Inv ∧
    steps 1 { State.resetWith ⟨4, 3, 0⟩ with input := [0x00#8] } = .next (State.resetWith ⟨4, 3, 0⟩) :=
  ⟨⟨by decide, by decide, by decide, by decide, by decide, .inl rfl⟩, rfl,
    ⟨by decide, by decide, by decide, by decide, by decide, .inl rfl⟩, rfl⟩

theorem test_witness_OnlyReservedStops : ∀ v, Instr.txstep ≠ .reserved v := fun _ h => (nomatch h)

theorem test_witness_TransmitAndReceiveAreIndependent : exec .txstep S0 = .next S0 ∧
    exec (.lineRx flagByte) S0 = .next (inFrame []) := ⟨rfl, rfl⟩

end Sys2Proof.Machine
end

/-! SUPPORT. The invariant of the state (10_state.md R32): each operation that a step calls keeps it, so every step does. -/

namespace Sys2Proof.Machine

/-! ### What the invariant leaves free -/

/-- The invariant does not speak of the model's own lists. -/
theorem State.Inv.with_lists {s : State} (h : s.Inv) (history : List Output) (input : List Byte)
    (held : List Submission) (order : List Turn) :
    State.Inv { s with history := history, input := input, held := held, order := order } :=
  ⟨h.config, h.table, h.hunt, h.bound, h.full, h.tx⟩

/-- A state that differs only in its transmit queue has the invariant when that queue is empty or a suffix of one line
form. -/
theorem State.Inv.with_txQueue {s : State} (h : s.Inv) {q : List Byte}
    (hq : State.TxInv { s with txQueue := q }) : State.Inv { s with txQueue := q } :=
  ⟨h.config, h.table, h.hunt, h.bound, h.full, hq⟩

/-! ### Reset -/

theorem State.resetWith_inv {c : Config} (hc : c.wf = true) : (State.resetWith c).Inv :=
  ⟨hc, List.length_replicate, fun _ => ⟨rfl, rfl, rfl⟩, Nat.zero_le _, fun ho => (nomatch ho), .inl rfl⟩

/-- RESET establishes all but the legal parameters, which it leaves as they are (R270). -/
theorem State.Inv.toReset {s : State} (h : s.Inv) : s.toReset.Inv :=
  (State.resetWith_inv h.config).with_lists s.history s.input s.held s.order

/-! ### Transmit path -/

/-- The queue an acceptance fills is a whole line form, its own suffix (R101, R102). -/
theorem State.Inv.accept {s : State} (h : s.Inv) (sub : Submission) : (s.accept sub).Inv :=
  h.with_txQueue (.inr ⟨_, _, _, List.suffix_refl _⟩)

theorem State.Inv.hold {s : State} (h : s.Inv) (sub : Submission) : (s.hold sub).Inv :=
  h.with_lists _ _ _ _

theorem State.Inv.submit {s : State} (h : s.Inv) (sub : Submission) : (s.submit sub).Inv := by
  rcases s.submit_cases sub with ⟨-, -, e⟩ | ⟨before, old, after, -, -, -, -, e⟩ | ⟨-, e⟩ <;> rw [e]
  · exact h.accept sub
  · exact (h.accept old).with_lists _ _ _ _
  · exact h.hold sub

theorem State.Inv.acceptOldest {s : State} (h : s.Inv) : s.acceptOldest.Inv := by
  unfold State.acceptOldest
  split
  · exact (h.with_lists _ _ _ _).accept _
  · exact h

/-- TXSTEP takes the first byte away, and the tail of a suffix is a suffix (R103). -/
theorem State.Inv.sendByte {s : State} (h : s.Inv) : s.sendByte.Inv := by
  rcases s.sendByte_cases with ⟨-, e⟩ | ⟨b, q, hq, e⟩ <;> rw [e]
  · exact h
  · have hsuffix : ∃ x accm acfc, q <:+ lineForm x accm acfc := by
      obtain hnil | ⟨x, accm, acfc, hx⟩ := h.tx
      · simp [hq] at hnil
      · exact ⟨x, accm, acfc, (List.suffix_cons b q).trans (hq ▸ hx)⟩
    exact (h.with_txQueue (.inr hsuffix)).with_lists _ _ _ _

/-! ### Host accesses -/

/-- A register write changes no length: an entry of the table is replaced in its place (R211 to R215). -/
theorem State.Inv.writeReg {s : State} (h : s.Inv) (d : Word32) (r : RegSel) : (s.writeReg d r).Inv := by
  rcases s.writeReg_cases d r with ⟨-, e⟩ | ⟨-, e⟩ | ⟨i, -, -, e⟩ | e <;> rw [e]
  · exact ⟨h.config, h.table, h.hunt, h.bound, h.full, h.tx⟩
  · exact ⟨h.config, h.table, h.hunt, h.bound, h.full, h.tx⟩
  · exact ⟨h.config, List.length_set.trans h.table, h.hunt, h.bound, h.full, h.tx⟩
  · exact h

theorem State.Inv.hostRead {s : State} (h : s.Inv) (r : RegSel) : (s.hostRead r).Inv :=
  h.with_lists _ _ _ _

/-! ### Receive path -/

/-- A cleared receiver has the invariant in either mode. -/
theorem State.Inv.clearRx_with_mode {s : State} (h : s.Inv) (m : RxMode) :
    State.Inv { s.clearRx with rxMode := m } :=
  ⟨h.config, h.table, fun _ => ⟨rfl, rfl, rfl⟩, Nat.zero_le _, fun ho => (nomatch ho), h.tx⟩

theorem State.Inv.closeFrame_clearRx {s : State} (h : s.Inv) : s.closeFrame.clearRx.Inv :=
  (h.clearRx_with_mode s.rxMode).with_lists _ _ _ _

/-- In FRAME the escape bit is free. -/
theorem State.Inv.with_rxEsc {s : State} (h : s.Inv) (hm : s.rxMode = .frame) (e : Bool) :
    State.Inv { s with rxEsc := e } :=
  ⟨h.config, h.table, fun hh => (nomatch hm.symm.trans hh), h.bound, h.full, h.tx⟩

/-- In FRAME a byte joins a buffer that has room, which `full` says has not overflowed; a buffer without room is full, by
`bound`, and overflow is set (R126). -/
theorem State.Inv.appendRx {s : State} (h : s.Inv) (hm : s.rxMode = .frame) (v : Byte) : (s.appendRx v).Inv := by
  have hnot : s.rxMode ≠ .hunt := by simp [hm]
  rcases s.appendRx_cases v with ⟨hroom, e⟩ | ⟨hroom, e⟩ <;> rw [e]
  · refine ⟨h.config, h.table, fun hh => absurd hh hnot, ?_, fun ho => ?_, h.tx⟩
    · simpa using hroom
    · exact absurd (h.full ho) (Nat.ne_of_lt hroom)
  · exact ⟨h.config, h.table, fun hh => absurd hh hnot, h.bound,
      fun _ => Nat.le_antisymm h.bound (Nat.not_lt.1 hroom), h.tx⟩

theorem exec_lineRx_keeps_inv {s t : State} (h : s.Inv) {b : Byte} (ht : exec (.lineRx b) s = .next t) : t.Inv := by
  rcases exec_lineRx_cases b s with ⟨-, -, e⟩ | ⟨-, -, e⟩ | ⟨-, -, e⟩ | ⟨hm, -, -, e⟩ | ⟨hm, -, -, e⟩ |
      ⟨hm, -, -, -, e⟩ <;> rw [e] at ht <;> cases ht
  · exact h.clearRx_with_mode .frame
  · exact h
  · exact h.closeFrame_clearRx
  · exact (h.with_rxEsc hm false).appendRx hm _
  · exact h.with_rxEsc hm true
  · exact h.appendRx hm b

/-! ### Steps -/

/-- Every event row that answers a next state keeps the invariant. The inner rows need not: a tx_byte row, run directly,
lengthens the queue past a line form (log 7). -/
theorem exec_event_keeps_inv {s t : State} (h : s.Inv) {i : Instr} (hi : i.format = .event)
    (ht : exec i s = .next t) : t.Inv := by
  cases i with
  | reset => cases ht; exact h.toReset
  | lineRx b => exact exec_lineRx_keeps_inv h ht
  | txstep => cases ht; exact h.sendByte
  | hostWr off d => rw [exec_hostWr] at ht; cases ht; exact h.writeReg d _
  | hostRd off => rw [exec_hostRd] at ht; cases ht; exact h.hostRead _
  | frTx x => cases ht; exact h.submit _
  | muxTx n info => cases ht; exact h.submit _
  | reserved v => cases v <;> cases ht
  | _ => cases hi

theorem step_keeps_inv {s t : State} (h : s.Inv) (ht : step s = .next t) : t.Inv := by
  rcases step_cases s with ⟨i, rest, o, hd, e, -⟩ | ⟨o, -, e, -⟩ | ⟨-, -, e⟩ | ⟨-, -, -, e⟩ <;> rw [e] at ht
  · exact exec_event_keeps_inv (h.with_lists _ _ _ _) (decodeEvent_format hd) ht
  · cases ht
    exact (h.with_lists _ _ _ _).acceptOldest
  · exact exec_event_keeps_inv h rfl ht
  · cases ht
    exact h

/-- What every step keeps holds after every run. -/
theorem steps_keep {P : State → Prop} (hstep : ∀ s t, P s → step s = .next t → P t) (k : Nat) {s t : State} (h : P s)
    (ht : steps k s = .next t) : P t := by
  induction k generalizing s with
  | zero => cases ht; exact h
  | succ k ih =>
    unfold steps at ht
    split at ht
    case h_1 s' hs => exact ih (hstep s s' h hs) ht
    all_goals cases ht

/-- Settles O58: a step runs an event row, accepts a held submission, moves the transmit engine or idles, and each keeps the
invariant; RESET with legal parameters has it. -/
theorem everyStepKeepsTheInvariant : Obligations.EveryStepKeepsTheInvariant := by
  unfold Obligations.EveryStepKeepsTheInvariant
  refine ⟨fun _ _ h ht => step_keeps_inv h ht, fun c input k t hc ht => ?_⟩
  have hreset : State.Inv { State.resetWith c with input := input } := (State.resetWith_inv hc).with_lists _ _ _ _
  exact steps_keep (fun _ _ => step_keeps_inv) k hreset ht

end Sys2Proof.Machine

/-! SUPPORT. Host accesses (20_memory.md R53, R54): what an offset selects, and what an access leaves unchanged. -/

namespace Sys2Proof.Machine

/-! ### What an offset selects -/

/-- Every register has an aligned offset, so a misaligned one selects none (R53, R79). -/
theorem regSelect_of_misaligned {off : Byte} (nproto : Nat) (h : off.extractLsb' 0 2 ≠ 0b00#2) :
    regSelect nproto off = .unmapped := by
  have haligned : ∀ i : BitVec 4, (protoOffset i).extractLsb' 0 2 = 0b00#2 := by decide
  rcases regSelect_cases nproto off with ⟨rfl, -⟩ | ⟨rfl, -⟩ | ⟨rfl, -⟩ | ⟨i, rfl, -, -⟩ | e
  · exact absurd (by decide) h
  · exact absurd (by decide) h
  · exact absurd (by decide) h
  · exact absurd (haligned i) h
  · exact e

/-- Only an entry of the table is selected (R79). -/
theorem regSelect_proto_lt {nproto : Nat} {off : Byte} {i : BitVec 4} (h : regSelect nproto off = .proto i) :
    i.toNat < nproto := by
  rcases regSelect_cases nproto off with ⟨-, e⟩ | ⟨-, e⟩ | ⟨-, e⟩ | ⟨j, -, hj, e⟩ | e <;> rw [e] at h <;> cases h
  exact hj

/-! ### What an access leaves unchanged -/

/-- A write of an entry of the table replaces that entry (R214). -/
theorem State.setProto_of_lt {s : State} {i : BitVec 4} (h : i.toNat < s.config.nproto) (d : Word32) :
    s.setProto i d = { s with proto := s.proto.set i.toNat (ProtoEntry.ofWord d) } := if_pos h

/-- A write of an index beyond the table is ignored (R215). -/
theorem State.setProto_of_not_lt {s : State} {i : BitVec 4} (h : ¬ i.toNat < s.config.nproto) (d : Word32) :
    s.setProto i d = s := if_neg h

/-- An entry of the table reads as its value (R219). -/
theorem State.protoWord_of_getElem? {s : State} {i : BitVec 4} {e : ProtoEntry} (h : i.toNat < s.config.nproto)
    (he : s.proto[i.toNat]? = some e) : s.protoWord i = e.word := by
  rw [State.protoWord, if_pos h, he]

/-- Writing back the value a register holds changes nothing (R54): the value keeps every field of the register. -/
theorem State.writeReg_readReg {s : State} (hlen : s.proto.length = s.config.nproto) (r : RegSel) :
    s.writeReg (s.readReg r) r = s := by
  cases r with
  | accm => rfl
  | ctrl => simp [State.writeReg, State.readReg]
  | status => rfl
  | unmapped => rfl
  | proto i =>
    show s.setProto i (s.protoWord i) = s
    by_cases hi : i.toNat < s.config.nproto
    · have hget : s.proto[i.toNat]? = some s.proto[i.toNat] := List.getElem?_eq_getElem _
      rw [State.setProto_of_lt hi, State.protoWord_of_getElem? hi hget, ProtoEntry.ofWord_word, List.set_getElem_self]
    · exact State.setProto_of_not_lt hi _

/-- Only the traffic events and RESET change a receive field or the transmit queue (R54). Of the other event rows, a host
write has its frame, a host read only records, and RESERVED takes no step. -/
theorem exec_event_changing_buffers {i : Instr} {s t : State} (hi : i.format = .event) (ht : exec i s = .next t)
    (hchanged : t.rxMode ≠ s.rxMode ∨ t.rxEsc ≠ s.rxEsc ∨ t.rxOvf ≠ s.rxOvf ∨ t.rxBuf ≠ s.rxBuf ∨
      t.txQueue ≠ s.txQueue) :
    (∃ b, i = .lineRx b) ∨ (∃ x, i = .frTx x) ∨ (∃ n info, i = .muxTx n info) ∨ i = .txstep ∨ i = .reset := by
  cases i with
  | reset => simp
  | lineRx b => simp
  | txstep => simp
  | frTx x => simp
  | muxTx n info => simp
  | hostWr off d =>
    rw [exec_hostWr] at ht
    cases ht
    obtain ⟨-, hmode, hesc, hovf, hbuf, hqueue, -⟩ := s.writeReg_frame d (regSelect s.config.nproto off)
    simp [hmode, hesc, hovf, hbuf, hqueue] at hchanged
  | hostRd off =>
    rw [exec_hostRd] at ht
    cases ht
    simp at hchanged
  | reserved v => cases v <;> cases ht
  | _ => cases hi

/-- Settles O10: a misaligned offset selects no register, whose write is ignored and whose read returns 0. -/
theorem misalignedAccessIsIgnored : Obligations.MisalignedAccessIsIgnored := by
  unfold Obligations.MisalignedAccessIsIgnored
  intro s off d h
  have hsel : regSelect s.config.nproto off = .unmapped := regSelect_of_misaligned _ h
  rw [exec_hostWr, exec_hostRd, hsel]
  exact ⟨rfl, rfl⟩

/-- Settles O15: a host write writes the register its offset selects, a host read records the value it returned, a register
keeps the value it is read with, and of the event rows only the traffic events and RESET move the buffers. -/
theorem hostAccessesHaveNoOtherSideEffect : Obligations.HostAccessesHaveNoOtherSideEffect := by
  unfold Obligations.HostAccessesHaveNoOtherSideEffect
  refine ⟨fun s t off d ht => ?write, fun s t off ht => ?read, fun s hlen off => ?held, fun i s t hi ht hchanged => ?frame⟩
  case write =>
    rw [exec_hostWr] at ht
    cases ht
    generalize hr : regSelect s.config.nproto off = r
    cases r with
    | accm => rfl
    | ctrl => rfl
    | status => rfl
    | proto i => exact State.setProto_of_lt (regSelect_proto_lt hr) d
    | unmapped => rfl
  case read =>
    rw [exec_hostRd] at ht
    cases ht
    rfl
  case held => rw [exec_hostWr, State.writeReg_readReg hlen]
  case frame => exact exec_event_changing_buffers hi ht hchanged

end Sys2Proof.Machine


/-! SUPPORT. The events that decode further (30_encoding.md R79, R80): HOST_WR, HOST_RD and LINE_RX run the row their key
selects. -/

namespace Sys2Proof.Machine

/-- The bits of R79 select an entry of the handler table: none of the three fixed offsets has `off[7:6] = 01`. -/
theorem regSelect_of_protoBits {nproto : Nat} {off : Byte} (hblock : off.extractLsb' 6 2 = 0b01#2)
    (haligned : off.extractLsb' 0 2 = 0b00#2) (hentry : (off.extractLsb' 2 4).toNat < nproto) :
    regSelect nproto off = .proto (off.extractLsb' 2 4) := by
  have hfixed : ∀ fixed : Byte, fixed.extractLsb' 6 2 ≠ 0b01#2 → off ≠ fixed := fun _ hf he => hf (he ▸ hblock)
  rw [regSelect, if_neg (hfixed 0x00#8 (by decide)), if_neg (hfixed 0x04#8 (by decide)),
    if_neg (hfixed 0x08#8 (by decide)), if_pos ⟨hblock, haligned, hentry⟩]

/-- Every other offset selects no register (R79). -/
theorem regSelect_of_no_row {nproto : Nat} {off : Byte} (haccm : off ≠ 0x00#8) (hctrl : off ≠ 0x04#8)
    (hstatus : off ≠ 0x08#8) (hproto : ¬ (off.extractLsb' 6 2 = 0b01#2 ∧ off.extractLsb' 0 2 = 0b00#2 ∧
      (off.extractLsb' 2 4).toNat < nproto)) : regSelect nproto off = .unmapped := by
  rw [regSelect, if_neg haccm, if_neg hctrl, if_neg hstatus, if_neg hproto]

/-- HOST_WR completes, and does what the host_wr row does that its record decodes to (R79). -/
theorem exec_hostWr_runs_writeRow (off : Byte) (d : Word32) (s : State) :
    ∃ t, exec (.hostWr off d) s = .next t ∧ exec (writeRow s.config.nproto off d) s = .next t := by
  refine ⟨_, exec_hostWr off d s, ?_⟩
  unfold writeRow
  cases regSelect s.config.nproto off <;> rfl

/-- HOST_RD completes, and does what the host_rd row does that its record decodes to (R79). -/
theorem exec_hostRd_runs_readRow (off : Byte) (s : State) :
    ∃ t, exec (.hostRd off) s = .next t ∧ exec (readRow s.config.nproto off) s = .next t := by
  refine ⟨_, exec_hostRd off s, ?_⟩
  unfold readRow
  cases regSelect s.config.nproto off <;> rfl

/-- Settles O9: a host access runs the row its record decodes to, and the bits of the offset say which row that is. -/
theorem offsetSelectsHostRow : Obligations.OffsetSelectsHostRow := by
  unfold Obligations.OffsetSelectsHostRow
  intro s d
  have hwrite := fun off => exec_hostWr_runs_writeRow off d s
  have hread := fun off => exec_hostRd_runs_readRow off s
  refine ⟨hwrite 0x00#8, hwrite 0x04#8, hwrite 0x08#8, hread 0x00#8, hread 0x04#8, hread 0x08#8,
    fun off hblock haligned hentry => ?proto, fun off haccm hctrl hstatus hproto => ?unmapped⟩
  case proto =>
    have hsel := regSelect_of_protoBits hblock haligned hentry
    exact ⟨by simpa only [writeRow, hsel] using hwrite off, by simpa only [readRow, hsel] using hread off⟩
  case unmapped =>
    have hsel := regSelect_of_no_row haccm hctrl hstatus hproto
    exact ⟨by simpa only [writeRow, hsel] using hwrite off, by simpa only [readRow, hsel] using hread off⟩

/-- Settles O39: in HUNT the byte alone selects the row, in FRAME the flag comes first and then `rx_esc`; the rows that leave
the key's bit E free do not read it. -/
theorem lineByteRunsItsRow : Obligations.LineByteRunsItsRow := by
  unfold Obligations.LineByteRunsItsRow
  intro s b e
  refine ⟨fun hm hb => ⟨_, ?huntFlag, rfl⟩, fun hm hb => ⟨_, ?huntSkip, rfl⟩, fun hm hb => ⟨_, ?close, rfl⟩,
    fun hm he hb => ⟨_, ?esc, rfl⟩, fun hm he hb => ⟨_, ?unesc, rfl⟩, fun hm he hb hx => ⟨_, ?data, rfl⟩⟩
  case huntFlag => rw [exec_lineRx_hunt hm, if_pos hb]
  case huntSkip => rw [exec_lineRx_hunt hm, if_neg hb]
  case close => rw [exec_lineRx_frame hm, if_pos hb]
  case esc => rw [hb, exec_lineRx_escape hm he]
  case unesc => rw [exec_lineRx_frame hm, if_neg hb, if_pos he]
  case data => rw [exec_lineRx_frame hm, if_neg hb, if_neg (by simp [he]), if_neg hx]

end Sys2Proof.Machine

/-! SUPPORT. Sending a frame (40_hdlc_send.md R102 to R104): the transmit events on the queue, and the shape of what they
queue. -/

namespace Sys2Proof.Machine

/-! ### The transmit events -/

theorem exec_txstep (s : State) : exec .txstep s = .next s.sendByte := rfl

theorem State.sendByte_nil {s : State} (h : s.txQueue = []) : s.sendByte = s := by
  rcases s.sendByte_cases with ⟨-, e⟩ | ⟨b, q, hq, -⟩
  · exact e
  · simp [h] at hq

theorem State.sendByte_cons {s : State} {b : Byte} {q : List Byte} (h : s.txQueue = b :: q) :
    s.sendByte = { s with txQueue := q, history := s.history ++ [.lineTx b] } := by
  rcases s.sendByte_cases with ⟨hq, -⟩ | ⟨b', q', hq, e⟩
  · simp [h] at hq
  · obtain ⟨rfl, rfl⟩ := List.cons.inj (h.symm.trans hq)
    exact e

theorem exec_frTx (x : List Byte) (s : State) : exec (.frTx x) s = .next (s.submit (.fr x)) := rfl

/-- An idle transmitter that holds nothing accepts a payload (R102). -/
theorem exec_frTx_idle {s : State} (x : List Byte) (hq : s.txQueue = []) (hheld : s.held = []) :
    exec (.frTx x) s = .next (s.accept (.fr x)) := by
  rw [exec_frTx, s.submit_idle hq (by simp [hheld])]

/-! ### The shape of a line form -/

/-- No stuffed byte gives a flag, so no stuffed list holds one (R155 item 1). -/
theorem flag_notMem_stuff (accm : Word32) (x : List Byte) : flagByte ∉ stuff accm x := by
  simp only [stuff, List.mem_flatMap, not_exists, not_and]
  exact fun b _ => flag_notMem_stuffByte accm b

theorem stuffByte_length (accm : Word32) (b : Byte) :
    (stuffByte accm b).length = 1 + if esc accm b then 1 else 0 := by
  rcases stuffByte_cases accm b with ⟨he, e⟩ | ⟨he, e⟩ <;> rw [he, e] <;> rfl

/-- Stuffing adds one byte for each byte it escapes (R155 item 4). -/
theorem stuff_length (accm : Word32) (x : List Byte) : (stuff accm x).length = x.length + x.countP (esc accm) := by
  induction x with
  | nil => rfl
  | cons b x ih =>
    rw [stuff_cons, List.length_append, stuffByte_length, ih, List.length_cons, List.countP_cons]
    omega

theorem lineForm_length (x : List Byte) (accm : Word32) (acfc : Bool) :
    (lineForm x accm acfc).length = 2 + (txContent x acfc ++ fcsBytes (txContent x acfc)).length
      + (txContent x acfc ++ fcsBytes (txContent x acfc)).countP (esc accm) := by
  rw [lineForm_eq, List.length_cons, List.length_append, stuff_length, List.length_singleton]
  omega

/-- The opening flag is no escape, so an escape of a line form stands in its stuffed part, with the closing flag to come
(R104). -/
theorem lineForm_escape {x : List Byte} {accm : Word32} {acfc : Bool} {u v : List Byte}
    (h : lineForm x accm acfc = u ++ escByte :: v) : ∃ b w, v = b :: w ∧ b ≠ flagByte ∧ b ≠ escByte := by
  rw [lineForm_eq] at h
  cases u with
  | nil => exact absurd (List.cons.inj h).1 (by decide)
  | cons _ u =>
    obtain ⟨b, w, hv, hesc, hflag⟩ := stuff_escape accm _ [flagByte] (by decide) u v (List.cons.inj h).2
    exact ⟨b, w, hv, hflag, hesc⟩

/-- The empty content has FCS 00 00, which a clear bit 0 of the map leaves as it is (R104). -/
theorem lineForm_shortest {accm : Word32} (h : accm.getLsbD 0 = false) :
    lineForm [] accm true = [0x7E#8, 0x00#8, 0x00#8, 0x7E#8] := by
  have hcontent : txContent [] true ++ fcsBytes (txContent [] true) = [0x00#8, 0x00#8] := by decide
  have hesc : esc accm 0x00#8 = false := h
  have hzero : stuffByte accm 0x00#8 = [0x00#8] := by simp [stuffByte, hesc]
  rw [lineForm_eq, hcontent, stuff_cons, stuff_cons, stuff_nil, hzero]
  rfl

/-- Settles O32: a line form is a stuffed list between two flags, so its escapes and its length are that list's; the bounds
are those of a count, from none of the content and FCS escaped to all of it. -/
theorem lineFormShape : Obligations.LineFormShape := by
  unfold Obligations.LineFormShape
  intro x accm acfc
  have hlength := lineForm_length x accm acfc
  have hcount : (txContent x acfc ++ fcsBytes (txContent x acfc)).countP (esc accm) ≤
      (txContent x acfc ++ fcsBytes (txContent x acfc)).length := List.countP_le_length
  have hcontent : (txContent x acfc ++ fcsBytes (txContent x acfc)).length = (txContent x acfc).length + 2 := by simp
  refine ⟨⟨_, lineForm_eq x accm acfc, flag_notMem_stuff accm _⟩, fun _ _ => lineForm_escape, hlength, ?lower, ?upper,
    lineForm_shortest⟩
  case lower => omega
  case upper => omega

/-- Settles O29: TXSTEP is `sendByte`, which takes the first byte of the queue when there is one. -/
theorem txstepEmitsOneByte : Obligations.TxstepEmitsOneByte := by
  unfold Obligations.TxstepEmitsOneByte
  intro s
  refine ⟨fun hq => ?empty, fun b q hq => ?byte⟩
  case empty => rw [exec_txstep, State.sendByte_nil hq]
  case byte => rw [exec_txstep, State.sendByte_cons hq]

/-- Settles O33: the reset state is idle and holds nothing, so it accepts each payload; its line form under the reset
registers has the FCS that R107 gives, and stuffing content and FCS gives the frame. -/
theorem sourceExampleFrames : Obligations.SourceExampleFrames := by
  unfold Obligations.SourceExampleFrames
  have haccepts : ∀ x, exec (.frTx x) State.reset = .next (State.reset.accept (.fr x)) :=
    fun x => exec_frTx_idle x rfl rfl
  have hqueue : ∀ x, (State.reset.accept (.fr x)).txQueue = lineForm x 0xFFFFFFFF#32 false := fun _ => rfl
  refine ⟨⟨_, haccepts _, ?twoBytes⟩, ⟨_, haccepts _, ?oneByte⟩⟩
  case twoBytes =>
    have hfcs : fcsBytes (txContent [0x55#8, 0xAA#8] false) = [0x77#8, 0x71#8] := by decide +kernel
    rw [hqueue, lineForm_eq, hfcs]
    decide
  case oneByte =>
    have hfcs : fcsBytes (txContent [0x01#8] false) = [0xDE#8, 0x3B#8] := by decide +kernel
    rw [hqueue, lineForm_eq, hfcs]
    decide

end Sys2Proof.Machine

/-! SUPPORT. Receiving line bytes (41_hdlc_receive.md R121 to R129): what each class of line byte does, as LINE_RX and as its
row, and the checks of a closing flag one by one. -/

namespace Sys2Proof.Machine

/-! ### One line byte -/

/-- A buffer with room takes the byte (R126). -/
theorem State.appendRx_of_room {s : State} (v : Byte) (h : s.rxBuf.length < s.config.rxBufLen) :
    s.appendRx v = { s with rxBuf := s.rxBuf ++ [v] } := if_pos h

/-- A full buffer drops the byte and the overflow is kept in mind (R126). -/
theorem State.appendRx_of_full {s : State} (v : Byte) (h : s.config.rxBufLen ≤ s.rxBuf.length) :
    s.appendRx v = { s with rxOvf := true } := if_neg (Nat.not_lt.2 h)

section InFrame
variable {s : State} (hm : s.rxMode = .frame) {b : Byte} (hb : b ≠ flagByte)
include hm hb

/-- The second byte of an escape pair goes to `append` (R124). -/
theorem exec_lineRx_frame_unesc (he : s.rxEsc = true) :
    exec (.lineRx b) s = .next (State.appendRx { s with rxEsc := false } (b ^^^ 0x20#8)) := by
  rw [exec_lineRx_frame hm, if_neg hb, if_pos he]

/-- A literal byte goes to `append` (R125). -/
theorem exec_lineRx_frame_data (he : s.rxEsc = false) (hx : b ≠ escByte) :
    exec (.lineRx b) s = .next (s.appendRx b) := by
  rw [exec_lineRx_frame hm, if_neg hb, if_neg (by simp [he]), if_neg hx]

end InFrame

/-- LINE_RX and a row that do the same. -/
theorem forall_lineRx_row {b : Byte} {row : Instr} {s : State} {o : Host.Outcome State Fault Refusal}
    (hline : exec (.lineRx b) s = o) (hrow : exec row s = o) : ∀ i ∈ [Instr.lineRx b, row], exec i s = o :=
  List.forall_mem_cons.2 ⟨hline, List.forall_mem_singleton.2 hrow⟩

/-- Settles O40: the rows of R121 to R123, each with the branch of LINE_RX that its key selects. -/
theorem flagSkipAndEscapeRows : Obligations.FlagSkipAndEscapeRows := by
  unfold Obligations.FlagSkipAndEscapeRows
  intro s b
  refine ⟨fun hm => forall_lineRx_row ?flag rfl, fun hm hb => forall_lineRx_row ?skip rfl,
    fun hm he => forall_lineRx_row (exec_lineRx_escape hm he) rfl⟩
  case flag => exact (exec_lineRx_hunt hm _).trans (if_pos rfl)
  case skip => exact (exec_lineRx_hunt hm b).trans (if_neg hb)

/-- Settles O41: both ways a byte is stored end in `append`, which has room or has not. -/
theorem unescapedAndLiteralBytesAreStored : Obligations.UnescapedAndLiteralBytesAreStored := by
  unfold Obligations.UnescapedAndLiteralBytesAreStored
  intro s b hm hb
  refine ⟨fun he i hi => ?unescaped, fun he hx i hi => ?literal⟩
  case unescaped =>
    rw [forall_lineRx_row (exec_lineRx_frame_unesc hm hb he) rfl i hi]
    exact ⟨fun hroom => congrArg _ (State.appendRx_of_room (s := { s with rxEsc := false }) _ hroom),
      fun hfull => congrArg _ (State.appendRx_of_full (s := { s with rxEsc := false }) _ hfull)⟩
  case literal =>
    rw [forall_lineRx_row (exec_lineRx_frame_data hm hb he hx) rfl i hi]
    exact ⟨fun hroom => congrArg _ (State.appendRx_of_room b hroom),
      fun hfull => congrArg _ (State.appendRx_of_full b hfull)⟩

/-! ### The checks of a closing flag -/

section Checks
variable (ctrl : Ctrl) (proto : List ProtoEntry)

theorem closeOutputs_abort (ovf : Bool) (buf : List Byte) :
    closeOutputs ctrl proto true ovf buf = [.discard .abort] := rfl

theorem closeOutputs_overflow (buf : List Byte) :
    closeOutputs ctrl proto false true buf = [.discard .overflow] := rfl

theorem closeOutputs_empty : closeOutputs ctrl proto false false [] = [.discard .empty] := rfl

theorem closeOutputs_runt (v : Byte) : closeOutputs ctrl proto false false [v] = [.discard .runt] := rfl

/-- With two bytes and more, the FCS decides (R128). -/
theorem closeOutputs_fcs (c : List Byte) (lo hi : Byte) :
    closeOutputs ctrl proto false false (c ++ [lo, hi]) =
      if fcs16 c = hi ++ lo then [.frRx c, demux ctrl proto c] else [.discard .badFcs] := by
  have hlen : (c ++ [lo, hi]).length = c.length + 2 := by simp
  simp [closeOutputs, hlen, fcsOk]

end Checks

/-- A closing flag emits what `closeOutputs` says and opens the next frame (R127). -/
theorem exec_lineRx_flag_outputs {s : State} (hm : s.rxMode = .frame) :
    exec (.lineRx flagByte) s = .next { s with
      rxBuf := [], rxEsc := false, rxOvf := false
      history := s.history ++ closeOutputs s.ctrl s.proto s.rxEsc s.rxOvf s.rxBuf } :=
  exec_lineRx_flag hm

/-- Settles O42: what a closing flag emits is `closeOutputs`, check by check. -/
theorem closingFlagDecidesInOrder : Obligations.ClosingFlagDecidesInOrder := by
  unfold Obligations.ClosingFlagDecidesInOrder
  intro s hm
  refine ⟨closeOutputs s.ctrl s.proto s.rxEsc s.rxOvf s.rxBuf, forall_lineRx_row (exec_lineRx_flag_outputs hm) rfl,
    fun he => ?abort, fun he ho => ?overflow, fun he ho hb => ?empty, fun v he ho hb => ?runt,
    fun c lo hi he ho hb hfcs => ?good, fun c lo hi he ho hb hfcs => ?bad⟩
  case abort => rw [he, closeOutputs_abort]
  case overflow => rw [he, ho, closeOutputs_overflow]
  case empty => rw [he, ho, hb, closeOutputs_empty]
  case runt => rw [he, ho, hb, closeOutputs_runt]
  case good => rw [he, ho, hb, closeOutputs_fcs, if_pos hfcs]
  case bad => rw [he, ho, hb, closeOutputs_fcs, if_neg hfcs]

end Sys2Proof.Machine

/-! SUPPORT. Runs of line bytes (41_hdlc_receive.md R130 to R133): the state a run leaves, what it does not look at, frames
between flags, and the same runs as steps on presented records. -/

namespace Sys2Proof.Machine

/-! ### The state a run leaves -/

/-- The state a run of line bytes leaves: every byte completes (R80). -/
def lineRun (bs : List Byte) (s : State) : State := bs.foldl (fun s b => lineNext b s) s

theorem execAll_eq_lineRun (bs : List Byte) (s : State) : execAll (bs.map .lineRx) s = .next (lineRun bs s) :=
  execAll_lineRx bs s

@[simp] theorem lineRun_nil (s : State) : lineRun [] s = s := rfl

@[simp] theorem lineRun_cons (b : Byte) (bs : List Byte) (s : State) :
    lineRun (b :: bs) s = lineRun bs (lineNext b s) := rfl

theorem lineRun_append (bs cs : List Byte) (s : State) : lineRun (bs ++ cs) s = lineRun cs (lineRun bs s) :=
  List.foldl_append

/-- A run does not consult ACCM (R132). -/
theorem lineRun_accm (bs : List Byte) (s : State) (a : Word32) :
    lineRun bs { s with accm := a } = { lineRun bs s with accm := a } := by
  induction bs generalizing s with
  | nil => rfl
  | cons b bs ih => rw [lineRun_cons, lineNext_accm, ih, lineRun_cons]

/-- A run does not look at the stream of records (log 2). -/
theorem lineRun_input (bs : List Byte) (s : State) (inp : List Byte) :
    lineRun bs { s with input := inp } = { lineRun bs s with input := inp } := by
  induction bs generalizing s with
  | nil => rfl
  | cons b bs ih => rw [lineRun_cons, lineNext_input, ih, lineRun_cons]

theorem lineRun_keeps_input (bs : List Byte) (s : State) : (lineRun bs s).input = s.input := by
  induction bs generalizing s with
  | nil => rfl
  | cons b bs ih =>
    obtain ⟨-, -, -, -, -, -, hinput, -, -⟩ := lineNext_frame b s
    rw [lineRun_cons, ih, hinput]

/-- A run makes no held submission acceptable. -/
theorem lineRun_awaiting (bs : List Byte) (s : State) : (lineRun bs s).awaiting = s.awaiting := by
  induction bs generalizing s with
  | nil => rfl
  | cons b bs ih => rw [lineRun_cons, ih, lineNext_awaiting]

/-- Settles O45: a run's state carries ACCM along unread; and data below 0x20 is neither the flag nor the escape. -/
theorem receivePathIgnoresAccm : Obligations.ReceivePathIgnoresAccm := by
  unfold Obligations.ReceivePathIgnoresAccm
  refine ⟨fun bs s t a ht => ?run, fun s b a hm he hb hroom => ?control⟩
  case run =>
    rw [execAll_eq_lineRun] at ht ⊢
    cases ht
    rw [lineRun_accm]
  case control =>
    have hne : ∀ v : Byte, 0x20 ≤ v.toNat → b ≠ v := fun v hv hbv => absurd (hbv ▸ hb) (Nat.not_lt.2 hv)
    exact exec_lineRx_data (s := { s with accm := a }) hm he (hne flagByte (by decide)) (hne escByte (by decide)) hroom

/-! ### The same runs as steps -/

/-- Records of line bytes, one step each, do what the bytes do as instructions, and leave the records behind them. -/
theorem steps_of_execAll_lineRx {bs rest : List Byte} {s t : State} (ha : s.awaiting = false)
    (hi : s.input = lineRecords bs ++ rest) (ht : execAll (bs.map .lineRx) s = .next t) :
    steps bs.length s = .next { t with input := rest } := by
  rw [execAll_lineRx] at ht
  cases ht
  exact steps_lineRecords bs rest s ha hi

/-- A list of line bytes presented with nothing else waiting. -/
theorem steps_presented (bs : List Byte) {s : State} (ha : s.awaiting = false) (hi : s.input = []) :
    steps bs.length { s with input := lineRecords bs } = .next (lineRun bs s) := by
  have hrest : { lineRun bs s with input := [] } = lineRun bs s := by
    rw [← hi, ← lineRun_keeps_input bs s]
  rw [steps_of_execAll_lineRx (s := { s with input := lineRecords bs }) (rest := []) ha (List.append_nil _).symm
    (execAll_eq_lineRun bs _), lineRun_input, hrest]

/-- Chunks leave the state of a run over their concatenation: a run over a concatenation is one run after the other. -/
theorem stepChunks_eq_lineRun (cs : List (List Byte)) {s : State} (ha : s.awaiting = false) (hi : s.input = []) :
    stepChunks cs s = .next (lineRun cs.flatten s) := by
  induction cs generalizing s with
  | nil => rfl
  | cons c cs ih =>
    rw [stepChunks, steps_presented c ha hi, List.flatten_cons, lineRun_append]
    exact ih ((lineRun_awaiting c s).trans ha) ((lineRun_keeps_input c s).trans hi)

/-- Settles O46: chunk by chunk or whole, the state is that of one run over the concatenation. -/
theorem chunkingIsNotVisible : Obligations.ChunkingIsNotVisible := by
  unfold Obligations.ChunkingIsNotVisible
  intro cs s hi hheld
  have ha := s.not_awaiting_iff.2 hheld
  have hchunks := stepChunks_eq_lineRun cs ha hi
  exact ⟨hchunks.trans (steps_presented cs.flatten ha hi).symm, _, hchunks, (lineRun_keeps_input _ s).trans hi⟩

/-! ### Bytes between flags -/

@[simp] theorem State.appendRx_history (s : State) (v : Byte) : (s.appendRx v).history = s.history := by
  rcases s.appendRx_cases v with ⟨-, e⟩ | ⟨-, e⟩ <;> rw [e]

theorem lineNext_of_exec {b : Byte} {s t : State} (h : exec (.lineRx b) s = .next t) : lineNext b s = t :=
  Host.Outcome.next.inj ((exec_lineRx b s).symm.trans h)

/-- Only a flag emits (R121 to R127). -/
theorem lineNext_history {b : Byte} (hb : b ≠ flagByte) (s : State) : (lineNext b s).history = s.history := by
  rcases exec_lineRx_cases b s with ⟨-, hflag, -⟩ | ⟨-, -, e⟩ | ⟨-, hflag, -⟩ | ⟨-, -, -, e⟩ | ⟨-, -, -, e⟩ |
      ⟨-, -, -, -, e⟩
  · exact absurd hflag hb
  · rw [lineNext_of_exec e]
  · exact absurd hflag hb
  · rw [lineNext_of_exec e, State.appendRx_history]
  · rw [lineNext_of_exec e]
  · rw [lineNext_of_exec e, State.appendRx_history]

/-- Bytes without a flag emit nothing (R131 item 3). -/
theorem lineRun_history {y : List Byte} (hy : flagByte ∉ y) (s : State) : (lineRun y s).history = s.history := by
  induction y generalizing s with
  | nil => rfl
  | cons b y ih =>
    obtain ⟨hb, hy⟩ := not_or.1 (mt List.mem_cons.2 hy)
    rw [lineRun_cons, ih hy, lineNext_history (Ne.symm hb)]

/-- An escape pair, fed whole, stores the byte it stands for (R123, R124). -/
theorem execAll_escape_pair {s : State} (hm : s.rxMode = .frame) (he : s.rxEsc = false) {b : Byte} (hb : b ≠ flagByte)
    (hl : s.rxBuf.length < s.config.rxBufLen) :
    execAll [.lineRx escByte, .lineRx b] s = .next { s with rxBuf := s.rxBuf ++ [b ^^^ 0x20#8] } := by
  rw [execAll_cons_next (exec_lineRx_escape hm he),
    execAll_cons_next (exec_lineRx_unescape (s := { s with rxEsc := true }) hm rfl hb hl)]
  simp [execAll, he]

/-- In a frame, bytes without a flag are un-stuffed into the buffer, a dangling escape into `rx_esc` (R154). -/
theorem execAll_unstuff {s : State} (hm : s.rxMode = .frame) (he : s.rxEsc = false) {y : List Byte} (hy : flagByte ∉ y)
    (hl : s.rxBuf.length + (unstuff y).1.length ≤ s.config.rxBufLen) :
    execAll (y.map .lineRx) s = .next { s with rxBuf := s.rxBuf ++ (unstuff y).1, rxEsc := (unstuff y).2 } := by
  induction y using unstuff.induct generalizing s with
  | case1 => simp [unstuff, execAll, ← he]
  | case2 =>
    rw [List.map_singleton, execAll_cons_next (exec_lineRx_escape hm he)]
    simp [unstuff, execAll]
  | case3 b hx =>
    have hb : b ≠ flagByte := Ne.symm (List.ne_of_not_mem_cons hy)
    rw [unstuff_literal b [] hx] at hl ⊢
    rw [List.map_singleton, execAll_cons_next (exec_lineRx_data hm he hb hx hl)]
    simp [unstuff, execAll, ← he]
  | case4 b r ih =>
    obtain ⟨-, hb, hr⟩ : flagByte ≠ escByte ∧ flagByte ≠ b ∧ flagByte ∉ r := by simpa using hy
    simp only [unstuff_escape_pair, List.length_cons] at hl ⊢
    have hpair := execAll_escape_pair hm he hb.symm (by omega)
    have hrest := ih (s := { s with rxBuf := s.rxBuf ++ [b ^^^ 0x20#8] }) hm he hr (by simp; omega)
    rw [List.append_assoc] at hrest
    exact (execAll_append_next hpair).trans hrest
  | case5 b b' r hx ih =>
    obtain ⟨hb, hr⟩ := not_or.1 (mt List.mem_cons.2 hy)
    simp only [unstuff_literal b (b' :: r) hx, List.length_cons] at hl ⊢
    have hbyte := exec_lineRx_data hm he (Ne.symm hb) hx (by omega)
    have hrest := ih (s := { s with rxBuf := s.rxBuf ++ [b] }) hm he hr (by simp; omega)
    rw [List.append_assoc] at hrest
    exact (execAll_cons_next hbyte).trans hrest

/-! ### Frames between flags -/

theorem State.emits_emits (s : State) (os os' : List Output) : (s.emits os).emits os' = s.emits (os ++ os') := by
  simp [State.emits]

theorem State.AfterFlag.emits {s : State} (hs : s.AfterFlag) (os : List Output) : (s.emits os).AfterFlag := hs

/-- After a flag and the bytes of a buffer, with no escape pending and no overflow, a flag judges the buffer and leaves the
receiver after a flag (R127). -/
theorem State.AfterFlag.exec_flag {s : State} (hs : s.AfterFlag) (buf : List Byte) :
    exec (.lineRx flagByte) { s with rxBuf := buf } =
      .next (s.emits (closeOutputs s.ctrl s.proto false false buf)) := by
  obtain ⟨hm, hb, he, ho⟩ := hs
  rw [exec_lineRx_flag_outputs (s := { s with rxBuf := buf }) hm]
  simp [State.emits, hb, he, ho]

/-- After a flag, bytes without a flag are collected un-stuffed (R131 item 3, R154). -/
theorem State.AfterFlag.execAll_unstuff {s : State} (hs : s.AfterFlag) {y : List Byte} (hy : flagByte ∉ y)
    (hl : (unstuff y).1.length ≤ s.config.rxBufLen) :
    execAll (y.map .lineRx) s = .next { s with rxBuf := (unstuff y).1, rxEsc := (unstuff y).2 } := by
  obtain ⟨hm, hb, he, -⟩ := hs
  have hrun := Machine.execAll_unstuff hm he hy (by simpa [hb] using hl)
  rwa [hb] at hrun

/-- After a flag, a good frame and its closing flag hand the content up and to M (R131). -/
theorem State.AfterFlag.execAll_frame {s : State} (hs : s.AfterFlag) {y c : List Byte} (hy : flagByte ∉ y)
    (hgood : unstuff y = (c ++ fcsBytes c, false)) (hl : c.length + 2 ≤ s.config.rxBufLen) :
    execAll ((y ++ [flagByte]).map .lineRx) s = .next (s.emits [.frRx c, demux s.ctrl s.proto c]) := by
  have hbytes := hs.execAll_unstuff hy (by simpa [hgood] using hl)
  have ⟨_, _, he, _⟩ := hs
  rw [hgood, ← he] at hbytes
  rw [List.map_append, execAll_append_next hbytes, List.map_singleton, execAll_cons_next (hs.exec_flag _),
    closeOutputs_good]
  rfl

/-- After a flag, each further flag only records an EMPTY frame (R131). -/
theorem State.AfterFlag.execAll_flags {s : State} (hs : s.AfterFlag) (k : Nat) :
    execAll ((List.replicate k flagByte).map .lineRx) s = .next (s.emits (List.replicate k (.discard .empty))) := by
  induction k generalizing s with
  | zero => simp [execAll, State.emits]
  | succ k ih =>
    have ⟨_, hb, _, _⟩ := hs
    have hflag : exec (.lineRx flagByte) s = .next (s.emits [.discard .empty]) :=
      (hs.exec_flag s.rxBuf).trans (by rw [hb, closeOutputs_empty])
    rw [List.replicate_succ, List.map_cons, execAll_cons_next hflag, ih (hs.emits _), State.emits_emits]
    rfl

/-- Runs that only emit, one after the other. -/
theorem execAll_lineRx_append_emits {bs cs : List Byte} {s : State} {os os' : List Output}
    (hbs : execAll (bs.map .lineRx) s = .next (s.emits os))
    (hcs : execAll (cs.map .lineRx) (s.emits os) = .next ((s.emits os).emits os')) :
    execAll ((bs ++ cs).map .lineRx) s = .next (s.emits (os ++ os')) := by
  rw [List.map_append, execAll_append_next hbs, hcs, State.emits_emits]

/-- After a flag: flags, a good frame with its closing flag, flags (R131). -/
theorem State.AfterFlag.execAll_flags_frame_flags {s : State} (hs : s.AfterFlag) {y c : List Byte} (hy : flagByte ∉ y)
    (hgood : unstuff y = (c ++ fcsBytes c, false)) (hl : c.length + 2 ≤ s.config.rxBufLen) (j k : Nat) :
    execAll ((List.replicate j flagByte ++ y ++ [flagByte] ++ List.replicate k flagByte).map .lineRx) s =
      .next (s.emits (List.replicate j (.discard .empty) ++ [.frRx c, demux s.ctrl s.proto c] ++
        List.replicate k (.discard .empty))) := by
  have hframe := execAll_lineRx_append_emits (hs.execAll_flags j) ((hs.emits _).execAll_frame hy hgood hl)
  rw [← List.append_assoc] at hframe
  exact execAll_lineRx_append_emits hframe ((hs.emits _).execAll_flags k)

/-- A flag from any state opens a frame; it closes at most one, and none from HUNT (R121, R127). -/
theorem exec_lineRx_flag_opens (s : State) :
    ∃ before, (frRxContents before).length ≤ 1 ∧ (s.rxMode = .hunt → before = []) ∧
      exec (.lineRx flagByte) s = .next { s with
        rxMode := .frame, rxBuf := [], rxEsc := false, rxOvf := false, history := s.history ++ before } := by
  cases hm : s.rxMode with
  | hunt =>
    refine ⟨[], Nat.zero_le _, fun _ => rfl, ?_⟩
    rw [exec_lineRx_hunt hm, if_pos rfl, List.append_nil]
    rfl
  | frame =>
    refine ⟨_, frRxContents_closeOutputs s.ctrl s.proto s.rxEsc s.rxOvf s.rxBuf, fun h => (nomatch h), ?_⟩
    rw [exec_lineRx_flag_outputs hm, hm]

/-- Settles O48: two frames are one frame between flags, twice; the flag from HUNT opens a frame; bytes without a flag are
collected and emit nothing. -/
theorem flagsDelimitFrames : Obligations.FlagsDelimitFrames := by
  unfold Obligations.FlagsDelimitFrames
  refine ⟨fun s y c j k hs hy hgood hl => ?one, fun s y y' c c' j k l hs hy hy' hgood hgood' hl hl' => ?two,
    fun s hm => ?opening, fun s y hs hy hl => hs.execAll_unstuff hy hl, fun s t y hy ht => ?silent⟩
  case one =>
    have hone := hs.execAll_flags_frame_flags hy hgood hl j k
    simpa only [State.emits, List.append_assoc] using hone
  case two =>
    have hone := hs.execAll_flags_frame_flags hy hgood hl j k
    have htwo := execAll_lineRx_append_emits hone ((hs.emits _).execAll_flags_frame_flags hy' hgood' hl' 0 l)
    simpa [State.emits] using htwo
  case opening =>
    obtain ⟨before, -, hbefore, hflag⟩ := exec_lineRx_flag_opens s
    refine ⟨_, hflag, ⟨rfl, rfl, rfl, rfl⟩, ?_⟩
    rw [hbefore hm, List.append_nil]
  case silent =>
    rw [execAll_eq_lineRun] at ht
    cases ht
    exact lineRun_history hy s

/-! ### The round trip -/

/-- Settles O49: the steps run the bytes of the line form; its opening flag opens a frame from any state, and after a flag the
rest of it delivers the content. -/
theorem hdlcRoundTrip : Obligations.HdlcRoundTrip := by
  unfold Obligations.HdlcRoundTrip
  intro s x a c rest hl hheld
  have ha := s.not_awaiting_iff.2 hheld
  refine ⟨fun hs hi => ?afterFlag, fun hi => ?whole⟩
  case afterFlag => exact steps_of_execAll_lineRx ha hi (execAll_lineForm_rest hs x a c hl)
  case whole =>
    obtain ⟨before, hcount, hhunt, hflag⟩ := exec_lineRx_flag_opens s
    have hrest := execAll_lineForm_rest (s := { s with
      rxMode := .frame, rxBuf := [], rxEsc := false, rxOvf := false, history := s.history ++ before })
      ⟨rfl, rfl, rfl, rfl⟩ x a c hl
    exact ⟨before, hcount, hhunt, steps_of_execAll_lineRx ha hi ((execAll_cons_next hflag).trans hrest)⟩

end Sys2Proof.Machine

/-! SUPPORT. Byte-stuffing of whole lists (42_byte_stuffing.md R154, R155): un-stuffing inverts it whatever the map, and which
bytes the empty map escapes. -/

namespace Sys2Proof.Machine

/-- Un-stuffing a stuffed list gives the list back, with no dangling escape, whatever the map (R155 item 3). -/
@[simp] theorem unstuff_stuff (accm : Word32) (x : List Byte) : unstuff (stuff accm x) = (x, false) := by
  induction x with
  | nil => rfl
  | cons b x ih => rw [stuff_cons, unstuff_stuffByte_append, ih]

/-- With the map 0 exactly the flag and the escape are escaped (R155 item 5). -/
theorem esc_zero_iff (b : Byte) : esc 0x00000000#32 b = true ↔ b = flagByte ∨ b = escByte := by
  have hmap : (0x00000000#32).getLsbD b.toNat = false := BitVec.getLsbD_zero
  simp only [esc, hmap, Bool.and_false, Bool.or_false, Bool.or_eq_true, decide_eq_true_eq]

/-- Settles O20: each escape of a stuffed list is followed by a byte that is no escape; the list un-stuffs to what was stuffed,
one byte at a time, and has one byte more for each escaped byte. -/
theorem stuffingLaws : Obligations.StuffingLaws := by
  unfold Obligations.StuffingLaws
  intro x accm
  refine ⟨flag_notMem_stuff accm x, fun u v huv => ?pair, unstuff_stuff accm x, stuff_length accm x, esc_zero_iff⟩
  case pair =>
    obtain ⟨b, w, hv, hb, -⟩ := stuff_escape accm x [] List.not_mem_nil u v ((List.append_nil _).trans huv)
    exact ⟨b, w, hv, hb⟩

/-- Settles O47: the equations of `unstuff`, by what its first byte is; and the receiver after a flag, which un-stuffs the
bytes it is fed into its empty buffer. -/
theorem receiverComputesUnstuff : Obligations.ReceiverComputesUnstuff := by
  unfold Obligations.ReceiverComputesUnstuff
  exact ⟨rfl, rfl, unstuff_escape_pair, unstuff_literal, fun _ _ hs hy hl => hs.execAll_unstuff hy hl⟩

end Sys2Proof.Machine

/-! SUPPORT. The CRC in a frame (43_crc16.md): the two cases of a shift, and what the register says of the FCS and its bytes. -/

namespace Sys2Proof.Machine

/-- A shift that drops a 1 brings the polynomial in (R165). -/
theorem crcShift_of_bit {r : Word16} (h : r.getLsbD 0 = true) : crcShift r = (r >>> 1) ^^^ 0x8408#16 := if_pos h

/-- A shift that drops a 0 only shifts (R165). -/
theorem crcShift_of_no_bit {r : Word16} (h : r.getLsbD 0 = false) : crcShift r = r >>> 1 := by
  rw [crcShift_eq, h, if_neg Bool.false_ne_true, BitVec.xor_zero]

theorem fcs16_of_crcReg {x : List Byte} {r : Word16} (h : crcReg x = r) : fcs16 x = r ^^^ 0xFFFF#16 := by
  rw [fcs16, h]

theorem fcsBytes_of_crcReg {x : List Byte} {r : Word16} (h : crcReg x = r) :
    fcsBytes x = [(r ^^^ 0xFFFF#16).extractLsb' 0 8, (r ^^^ 0xFFFF#16).extractLsb' 8 8] := by
  rw [fcsBytes, fcs16_of_crcReg h]

/-- Settles O25: what stands between the flags is the stuffed content and FCS, and un-stuffing inverts stuffing. -/
theorem fcsCoversTheUnstuffedContent : Obligations.FcsCoversTheUnstuffedContent := by
  unfold Obligations.FcsCoversTheUnstuffedContent
  intro x accm acfc
  exact ⟨stuff accm (txContent x acfc ++ fcsBytes (txContent x acfc)), rfl, unstuff_stuff accm _⟩

/-- Settles O21: the two cases of a shift, the eight shifts of a byte, the register's recursion, the FCS and its bytes. -/
theorem crcFollowsItsRules : Obligations.CrcFollowsItsRules := by
  unfold Obligations.CrcFollowsItsRules
  refine ⟨fun _ => crcShift_of_bit, fun _ => crcShift_of_no_bit, fun r b => ?eightShifts, rfl, crcReg_append_byte,
    fun _ => fcs16_of_crcReg rfl, fun _ => fcsBytes_of_crcReg rfl⟩
  case eightShifts => simp only [crcStep, crcShifts]

/-- Settles O22: the register of each list is run; its FCS and FCS bytes follow from the register. -/
theorem crcCheckValues : Obligations.CrcCheckValues := by
  unfold Obligations.CrcCheckValues
  have digits : crcReg [0x31#8, 0x32#8, 0x33#8, 0x34#8, 0x35#8, 0x36#8, 0x37#8, 0x38#8, 0x39#8] = 0x6F91#16 := by
    decide +kernel
  have addressControl : crcReg [0xFF#8, 0x03#8] = 0x3DE3#16 := by decide +kernel
  have payload : crcReg [0xFF#8, 0x03#8, 0x55#8, 0xAA#8] = 0x8E88#16 := by decide +kernel
  have oneByte : crcReg [0xFF#8, 0x03#8, 0x01#8] = 0xC421#16 := by decide +kernel
  have compressed : crcReg [0x55#8, 0xAA#8] = 0x57A7#16 := by decide +kernel
  exact ⟨rfl, fcs16_of_crcReg rfl, fcsBytes_of_crcReg rfl,
    digits, fcs16_of_crcReg digits, fcsBytes_of_crcReg digits,
    addressControl, fcs16_of_crcReg addressControl, fcsBytes_of_crcReg addressControl,
    payload, fcs16_of_crcReg payload, fcsBytes_of_crcReg payload,
    oneByte, fcs16_of_crcReg oneByte, fcsBytes_of_crcReg oneByte,
    compressed, fcs16_of_crcReg compressed, fcsBytes_of_crcReg compressed⟩

end Sys2Proof.Machine

/-! SUPPORT. The multiplexer's lookup and stages (44_ppp_mux.md): where dispatch delivers, the address and control stage by
whether the content starts FF 03, and the protocol field stage by the parity of its bytes. -/

namespace Sys2Proof.Machine

/-! ### Handler lookup -/

/-- The least valid entry that holds the number receives (R187, R188). -/
theorem dispatch_of_least {proto : List ProtoEntry} {n : Word16} {i : Nat} (info : List Byte) (h : i < proto.length)
    (hv : proto[i].valid = true) (hn : proto[i].num = n)
    (least : ∀ (j : Nat) (hj : j < i), ¬ (proto[j].valid = true ∧ proto[j].num = n)) :
    dispatch proto n info = .muxRx i info := by
  have found : proto.findIdx? (fun e => e.valid && e.num == n) = some i :=
    List.findIdx?_eq_some_iff_getElem.2 ⟨h, by simp [hv, hn], fun j hj => by simpa using least j hj⟩
  simp only [dispatch, found]

/-- A number that no valid entry holds is rejected (R189). -/
theorem dispatch_of_no_handler {proto : List ProtoEntry} {n : Word16} (info : List Byte)
    (h : ∀ e ∈ proto, ¬ (e.valid = true ∧ e.num = n)) : dispatch proto n info = .muxRej n info := by
  have missing : proto.findIdx? (fun e => e.valid && e.num == n) = none :=
    List.findIdx?_eq_none_iff.2 fun e he => by simpa using h e he
  simp only [dispatch, missing]

/-- Settles O53: the lookup finds the least valid entry that holds the number, or none. -/
theorem leastMatchingHandlerReceives : Obligations.LeastMatchingHandlerReceives := by
  unfold Obligations.LeastMatchingHandlerReceives
  exact fun _ _ info => ⟨fun _ => dispatch_of_least info, dispatch_of_no_handler info⟩

/-! ### The address and control stage (R184) -/

theorem startsAddressControl_iff (c : List Byte) :
    startsAddressControl c = true ↔ ∃ p, c = 0xFF#8 :: 0x03#8 :: p := by
  rcases c with _ | ⟨a, _ | ⟨k, p⟩⟩ <;> simp [startsAddressControl]

theorem demux_addressControl (ctrl : Ctrl) (proto : List ProtoEntry) (p : List Byte) :
    demux ctrl proto (0xFF#8 :: 0x03#8 :: p) = protocolStage ctrl proto p := rfl

theorem demux_of_no_addressControl {c : List Byte} (ctrl : Ctrl) (proto : List ProtoEntry)
    (h : ∀ p, c ≠ 0xFF#8 :: 0x03#8 :: p) : demux ctrl proto c = absentAddress ctrl proto c :=
  if_neg fun hc => ((startsAddressControl_iff c).1 hc).elim h

theorem absentAddress_of_acfc {ctrl : Ctrl} (h : ctrl.acfc = true) (proto : List ProtoEntry) (c : List Byte) :
    absentAddress ctrl proto c = protocolStage ctrl proto c := if_pos h

theorem absentAddress_of_no_acfc {ctrl : Ctrl} (h : ctrl.acfc = false) (proto : List ProtoEntry) (c : List Byte) :
    absentAddress ctrl proto c = .discard .noAc := by
  rw [absentAddress, h, if_neg Bool.false_ne_true]

/-! ### The protocol field stage (R185) -/

section
variable {p0 p1 : Byte} (ctrl : Ctrl) (proto : List ProtoEntry)

theorem protocolStage_odd (h : p0.getLsbD 0 = true) (info : List Byte) :
    protocolStage ctrl proto (p0 :: info) = compressedField ctrl proto p0 info := if_pos h

theorem protocolStage_even_alone (h : p0.getLsbD 0 = false) : protocolStage ctrl proto [p0] = .discard .short := by
  simp only [protocolStage, h, if_neg Bool.false_ne_true]

theorem protocolStage_even_even (h0 : p0.getLsbD 0 = false) (h1 : p1.getLsbD 0 = false) (info : List Byte) :
    protocolStage ctrl proto (p0 :: p1 :: info) = .discard .badProto := by
  simp only [protocolStage, h0, h1, if_neg Bool.false_ne_true]

theorem protocolStage_even_odd (h0 : p0.getLsbD 0 = false) (h1 : p1.getLsbD 0 = true) (info : List Byte) :
    protocolStage ctrl proto (p0 :: p1 :: info) = dispatch proto (p0 ++ p1) info := by
  simp only [protocolStage, h0, h1, if_neg Bool.false_ne_true, if_true]

end

theorem compressedField_of_pfc {ctrl : Ctrl} (h : ctrl.pfc = true) (proto : List ProtoEntry) (p0 : Byte)
    (info : List Byte) : compressedField ctrl proto p0 info = dispatch proto (p0.setWidth 16) info := if_pos h

theorem compressedField_of_no_pfc {ctrl : Ctrl} (h : ctrl.pfc = false) (proto : List ProtoEntry) (p0 : Byte)
    (info : List Byte) : compressedField ctrl proto p0 info = .discard .pfcOff := by
  rw [compressedField, h, if_neg Bool.false_ne_true]

/-- The number of a field of two bytes, as R185 computes it. -/
theorem append_eq_shift_or (p0 p1 : Byte) : p0 ++ p1 = (p0.setWidth 16 <<< 8) ||| p1.setWidth 16 := by
  rw [BitVec.append_def, BitVec.shiftLeftZeroExtend_eq, BitVec.setWidth'_eq]

/-- Settles O50: the address and control stage by whether the content starts FF 03, then the protocol field stage by the
parity of its first two bytes. -/
theorem demuxFollowsItsStages : Obligations.DemuxFollowsItsStages := by
  unfold Obligations.DemuxFollowsItsStages
  intro ctrl proto
  refine ⟨demux_addressControl ctrl proto, fun c hc ha => ?transparent, fun c hc ha => ?noAc, rfl,
    fun p0 info h0 hp => ?pfcOff, fun p0 info h0 hp => ?compressed, fun _ => protocolStage_even_alone ctrl proto,
    fun _ _ info h0 h1 => protocolStage_even_even ctrl proto h0 h1 info, fun p0 p1 info h0 h1 => ?full⟩
  case transparent => rw [demux_of_no_addressControl ctrl proto hc, absentAddress_of_acfc ha]
  case noAc => rw [demux_of_no_addressControl ctrl proto hc, absentAddress_of_no_acfc ha]
  case pfcOff => rw [protocolStage_odd ctrl proto h0, compressedField_of_no_pfc hp]
  case compressed => rw [protocolStage_odd ctrl proto h0, compressedField_of_pfc hp]
  case full => rw [protocolStage_even_odd ctrl proto h0 h1, append_eq_shift_or]

end Sys2Proof.Machine

/-! SUPPORT. Host registers one by one (45_host_interface.md R211 to R220): the offset of each, and what HOST_WR and HOST_RD
share with the row of the register their offset selects. -/

namespace Sys2Proof.Machine

/-! ### Offsets as numbers -/

/-- PROTO[i] stands at `0x40 + 4·i` (R60). -/
theorem protoOffset_toNat : ∀ i : BitVec 4, (protoOffset i).toNat = 0x40 + 4 * i.toNat := by decide

/-- The offset of an entry of the table selects that entry (R214, R219). -/
theorem regSelect_of_entry_offset {nproto : Nat} {off : Byte} {i : BitVec 4} (hi : i.toNat < nproto)
    (hoff : off.toNat = 0x40 + 4 * i.toNat) : regSelect nproto off = .proto i := by
  have h : off = protoOffset i := BitVec.eq_of_toNat_eq (hoff.trans (protoOffset_toNat i).symm)
  rw [h, regSelect_protoOffset nproto i hi]

/-- An offset of no register is unmapped (R215, R220). -/
theorem regSelect_of_no_register_offset {nproto : Nat} {off : Byte} (haccm : off ≠ 0x00#8) (hctrl : off ≠ 0x04#8)
    (hstatus : off ≠ 0x08#8) (hentry : ∀ i, i < nproto → off.toNat ≠ 0x40 + 4 * i) :
    regSelect nproto off = .unmapped := by
  rcases regSelect_cases nproto off with ⟨h, -⟩ | ⟨h, -⟩ | ⟨h, -⟩ | ⟨i, h, hi, -⟩ | h
  · exact absurd h haccm
  · exact absurd h hctrl
  · exact absurd h hstatus
  · exact absurd (h ▸ protoOffset_toNat i) (hentry i.toNat hi)
  · exact h

/-! ### An event and the row of the register it selects -/

/-- HOST_WR and a row that writes the register its offset selects. -/
theorem exec_hostWr_and_row {s t : State} {off : Byte} {d : Word32} {row : Instr} {r : RegSel}
    (hsel : regSelect s.config.nproto off = r) (hrow : exec row s = .next (s.writeReg d r)) (hwrite : s.writeReg d r = t) :
    exec (.hostWr off d) s = .next t ∧ exec row s = .next t := by
  subst hsel hwrite
  exact ⟨exec_hostWr off d s, hrow⟩

/-- HOST_RD and a row that reads the register its offset selects: the value is recorded and nothing else changes (R54). -/
theorem forall_hostRd_row {s : State} {off : Byte} {v : Word32} {row : Instr} {r : RegSel}
    (hsel : regSelect s.config.nproto off = r) (hrow : exec row s = .next (s.hostRead r)) (hread : s.readReg r = v) :
    ∀ i ∈ [Instr.hostRd off, row], exec i s = .next { s with history := s.history ++ [.hostRd v] } := by
  subst hsel hread
  exact List.forall_mem_cons.2 ⟨exec_hostRd off s, List.forall_mem_singleton.2 hrow⟩

/-- Settles O12: each offset selects its register, whose value is the word of its fields. -/
theorem hostReadRowsReturnTheirRegisters : Obligations.HostReadRowsReturnTheirRegisters := by
  unfold Obligations.HostReadRowsReturnTheirRegisters
  intro s
  refine ⟨forall_hostRd_row rfl rfl rfl, forall_hostRd_row rfl rfl s.ctrl.word_eq,
    forall_hostRd_row rfl rfl s.statusWord_eq, fun k off e hk hoff he => ?entry,
    fun off haccm hctrl hstatus hentry => ?unmapped⟩
  case entry =>
    have hread : s.protoWord k = BitVec.ofBool e.valid ++ 0#15 ++ e.num :=
      (State.protoWord_of_getElem? hk he).trans e.word_eq
    exact forall_hostRd_row (regSelect_of_entry_offset hk hoff) rfl hread
  case unmapped =>
    exact forall_hostRd_row (regSelect_of_no_register_offset haccm hctrl hstatus hentry) rfl rfl

/-- Settles O11: each offset selects its register, whose write replaces its fields or is ignored. -/
theorem hostWriteRowsWriteTheirFields : Obligations.HostWriteRowsWriteTheirFields := by
  unfold Obligations.HostWriteRowsWriteTheirFields
  intro s d
  refine ⟨exec_hostWr_and_row rfl rfl rfl, exec_hostWr_and_row rfl rfl rfl, exec_hostWr_and_row rfl rfl rfl,
    fun i off hi hoff => ?entry, fun off haccm hctrl hstatus hentry => ?unmapped⟩
  case entry =>
    exact exec_hostWr_and_row (regSelect_of_entry_offset hi hoff) rfl (State.setProto_of_lt hi d)
  case unmapped =>
    exact exec_hostWr_and_row (regSelect_of_no_register_offset haccm hctrl hstatus hentry) rfl rfl

end Sys2Proof.Machine

/-! SUPPORT. Refused records (30_encoding.md R82, 60_exceptions.md R244): what row RESERVED answers for each verdict, and what
a step that fetches such a record answers. -/

namespace Sys2Proof.Machine

theorem exec_reservedCode (c : Byte) (s : State) :
    exec (.reserved (.reservedCode c)) s = .refused (.reservedEventCode c) := rfl

theorem exec_truncated (r : List Byte) (s : State) :
    exec (.reserved (.truncated r)) s = .refused (.truncatedRecord r) := rfl

section
variable {s : State} (hfetch : s.awaiting = false)
include hfetch

theorem step_of_reservedCode {c : Byte} {rest : List Byte} (hi : s.input = c :: rest) (hc : 7 ≤ c.toNat) :
    step s = .refused (.reservedEventCode c) := by
  have hdecode : decodeEvent s.input = .ok (.reserved (.reservedCode c)) rest := by
    rw [hi, Laws.decodeEvent_reservedCode c rest hc]
  rw [step_of_decode hfetch hdecode, exec_reservedCode]

theorem step_of_recordCut (hcut : recordCut s.input = true) : step s = .refused (.truncatedRecord s.input) := by
  rw [step_of_decode hfetch (Laws.decodeEvent_recordCut s.input hcut), exec_truncated]

end

/-- Settles O4: the decoder reads such a record as its verdict, and row RESERVED refuses by the verdict's name whatever the
state. -/
theorem refusedRecordsTakeNoStep : Obligations.RefusedRecordsTakeNoStep := by
  unfold Obligations.RefusedRecordsTakeNoStep
  refine ⟨fun c s _ => exec_reservedCode c s, fun r s _ => exec_truncated r s,
    fun s _ _ hfetch hi hc => ?code, fun s hfetch hcut => ?cut⟩
  case code => exact step_of_reservedCode (s.not_awaiting_iff.2 hfetch) hi hc
  case cut => exact step_of_recordCut (s.not_awaiting_iff.2 hfetch) hcut

end Sys2Proof.Machine

/-! SUPPORT. RESET (70_reset_and_hazards.md R270): the row is `State.toReset`, whatever the state, and what STATUS reads
afterwards. -/

namespace Sys2Proof.Machine

theorem exec_reset (s : State) : exec .reset s = .next s.toReset := rfl

/-- After RESET the receiver hunts and the transmitter is idle (R25, R218). -/
theorem State.toReset_statusWord (s : State) : s.toReset.statusWord = 0x00000002#32 := by
  rw [State.statusWord_eq, State.toReset_rxMode, State.toReset_txQueue]
  decide

/-- Settles O1: the record of event code 0x00 is row RESET's encoding, and the row is `State.toReset`, after which STATUS reads
its reset value. -/
theorem resetSetsEveryField : Obligations.ResetSetsEveryField := by
  unfold Obligations.ResetSetsEveryField
  refine ⟨Laws.RoundTrip.reset Config.reference.nproto rfl, fun s => ⟨exec_reset s, fun t ht => ?status⟩⟩
  case status =>
    rw [exec_reset] at ht
    cases ht
    exact s.toReset_statusWord

end Sys2Proof.Machine

/-! SUPPORT. The decoders against the encoder (30_encoding.md sections 1 to 3): the round trip of every row, and event records in
a stream. -/

namespace Sys2Proof.Laws

/-- Every row makes the round trip. -/
theorem RoundTrip.all : ∀ i, RoundTrip.Statement i
  | .reset => RoundTrip.reset
  | .lineRx b => RoundTrip.lineRx b
  | .txstep => RoundTrip.txstep
  | .hostWr off d => RoundTrip.hostWr off d
  | .hostRd off => RoundTrip.hostRd off
  | .frTx x => RoundTrip.frTx x
  | .muxTx n info => RoundTrip.muxTx n info
  | .reserved v => RoundTrip.reserved v
  | .lrxHuntFlag e => RoundTrip.lrxHuntFlag e
  | .lrxHuntSkip e b => RoundTrip.lrxHuntSkip e b
  | .lrxClose e => RoundTrip.lrxClose e
  | .lrxEsc => RoundTrip.lrxEsc
  | .lrxUnesc b => RoundTrip.lrxUnesc b
  | .lrxData b => RoundTrip.lrxData b
  | .txbFlag => RoundTrip.txbFlag
  | .txbEsc => RoundTrip.txbEsc
  | .txbCtrl b => RoundTrip.txbCtrl b
  | .txbLit b => RoundTrip.txbLit b
  | .acPresent p => RoundTrip.acPresent p
  | .acAbsent c => RoundTrip.acAbsent c
  | .pfComp p0 info => RoundTrip.pfComp p0 info
  | .pfFull p0 p1 info => RoundTrip.pfFull p0 p1 info
  | .pfBad p => RoundTrip.pfBad p
  | .wrAccm d => RoundTrip.wrAccm d
  | .wrCtrl d => RoundTrip.wrCtrl d
  | .wrStatus d => RoundTrip.wrStatus d
  | .wrProto i d => RoundTrip.wrProto i d
  | .wrUnmapped off d => RoundTrip.wrUnmapped off d
  | .rdAccm => RoundTrip.rdAccm
  | .rdCtrl => RoundTrip.rdCtrl
  | .rdStatus => RoundTrip.rdStatus
  | .rdProto i => RoundTrip.rdProto i
  | .rdUnmapped off => RoundTrip.rdUnmapped off

/-- Settles O5: row by row, the decoder of the row's format takes the encoder's bytes apart where the encoder put them
together. -/
theorem decodeInvertsEncode : Obligations.DecodeInvertsEncode := by
  unfold Obligations.DecodeInvertsEncode
  exact fun nproto i => RoundTrip.all i nproto

/-- Settles O6: a record has its length in its code or in its length field, so the decoder stops where the record ends; a
truncated record, which takes all the bytes there are, is left out. -/
theorem eventRecordsDelimitThemselves : Obligations.EventRecordsDelimitThemselves := by
  unfold Obligations.EventRecordsDelimitThemselves
  intro nproto i rest hformat hwf hwhole
  cases i with
  | reset => rfl
  | lineRx b => rfl
  | txstep => rfl
  | hostWr off d => exact decodeEvent_hostWr off d rest
  | hostRd off => rfl
  | frTx x => exact decodeEvent_frTx x rest hwf
  | muxTx n info => exact decodeEvent_muxTx n info rest hwf
  | reserved v =>
    cases v with
    | reservedCode c => exact decodeEvent_reservedCode c rest (of_decide_eq_true hwf)
    | truncated r => exact absurd rfl (hwhole r)
  | _ => cases hformat

/-- Settles O7: each word is the encoding of the row it stands for, or, for the record cut short, is decoded as it stands. -/
theorem specWordsDecodeToTheirRows : Obligations.SpecWordsDecodeToTheirRows := by
  unfold Obligations.SpecWordsDecodeToTheirRows
  exact ⟨RoundTrip.hostWr 0x40#8 0x8000C021#32 4 rfl,
    RoundTrip.muxTx 0x0021#16 [0x45#8, 0x00#8, 0x7E#8, 0x11#8] 4 rfl,
    decodeEvent_recordCut [0x05#8, 0x00#8, 0x03#8, 0x55#8, 0xAA#8] rfl,
    RoundTrip.lrxEsc 4 rfl,
    RoundTrip.txbCtrl 0x1F#8 4 rfl,
    RoundTrip.acPresent [0x21#8] 4 rfl,
    RoundTrip.pfFull 0xC0#8 0x21#8 [0x09#8] 4 rfl,
    RoundTrip.wrUnmapped 0x50#8 0x80000021#32 4 rfl,
    RoundTrip.rdProto 0x3#4 4 rfl⟩

end Sys2Proof.Laws

/-! SUPPORT. Two blocks and a protocol number (44_ppp_mux.md R191): what the receiver's stages make of the protocol field and
the information that the sender put into its frame. -/

namespace Sys2Proof.Machine

/-! ### The protocol field as the sender writes it (R181) -/

theorem protocolField_compressed {n : Word16} (hle : n.toNat ≤ 0xFE) (hodd : n.getLsbD 0 = true) :
    protocolField n true = [n.extractLsb' 0 8] := by
  simp [protocolField, hle, hodd]

theorem protocolField_full {n : Word16} {pfc : Bool} (h : pfc = true → n.toNat ≤ 0xFE → n.getLsbD 0 = false) :
    protocolField n pfc = [n.extractLsb' 8 8, n.extractLsb' 0 8] := by
  refine if_neg fun hc => ?_
  obtain ⟨⟨hp, hle⟩, hodd⟩ : (pfc = true ∧ n.toNat ≤ 0xFE) ∧ n.getLsbD 0 = true := by
    simpa only [Bool.and_eq_true, decide_eq_true_eq] using hc
  exact Bool.false_ne_true ((h hp hle).symm.trans hodd)

/-- Everything the protocol field can be (R181). -/
theorem protocolField_cases (n : Word16) (pfc : Bool) :
    (pfc = true ∧ n.toNat ≤ 0xFE ∧ n.getLsbD 0 = true ∧ protocolField n pfc = [n.extractLsb' 0 8]) ∨
    protocolField n pfc = [n.extractLsb' 8 8, n.extractLsb' 0 8] := by
  by_cases h : pfc = true ∧ n.toNat ≤ 0xFE ∧ n.getLsbD 0 = true
  · obtain ⟨rfl, hle, hodd⟩ := h
    exact .inl ⟨rfl, hle, hodd, protocolField_compressed hle hodd⟩
  · refine .inr (protocolField_full fun hp hle => ?_)
    exact Bool.eq_false_iff.2 fun hodd => h ⟨hp, hle, hodd⟩

theorem low_byte_toNat {n : Word16} (h : n.toNat ≤ 0xFE) : (n.extractLsb' 0 8).toNat = n.toNat := by
  simp [BitVec.extractLsb'_toNat]
  omega

/-- A number of one byte is the zero extension of that byte. -/
theorem low_byte_setWidth {n : Word16} (h : n.toNat ≤ 0xFE) : (n.extractLsb' 0 8).setWidth 16 = n := by
  apply BitVec.eq_of_toNat_eq
  rw [BitVec.toNat_setWidth, low_byte_toNat h, Nat.mod_eq_of_lt n.isLt]

/-- A number with bit 8 set has more than one byte. -/
theorem lt_toNat_of_bit8 {n : Word16} (h : n.getLsbD 8 = true) : 0xFE < n.toNat := by
  have := Nat.ge_two_pow_of_testBit h
  omega

/-- Only the number 0xFF03 gives a field that reads as address and control (log 17). -/
theorem protocolField_append_ne_addressControl {n : Word16} (h : n ≠ 0xFF03#16) (pfc : Bool) (info p : List Byte) :
    protocolField n pfc ++ info ≠ 0xFF#8 :: 0x03#8 :: p := by
  intro he
  rcases protocolField_cases n pfc with ⟨-, hle, -, e⟩ | e <;> rw [e] at he
  · have hlow : n.extractLsb' 0 8 = 0xFF#8 := (List.cons.inj he).1
    have hvalue : (0xFF#8).toNat = n.toNat := hlow ▸ low_byte_toNat hle
    rw [← hvalue] at hle
    exact absurd hle (by decide)
  · obtain ⟨hhigh, htail⟩ := List.cons.inj he
    have hlow := (List.cons.inj htail).1
    exact h (by rw [← halfword_join n, hhigh, hlow]; rfl)

/-! ### What the receiver makes of it (R184, R185) -/

/-- The content a sender builds passes the address and control stage of a receiver with the same ACFC (R100, R184). -/
theorem demux_txContent {ctrl : Ctrl} (proto : List ProtoEntry) {x : List Byte}
    (h : ctrl.acfc = true → ∀ p, x ≠ 0xFF#8 :: 0x03#8 :: p) :
    demux ctrl proto (txContent x ctrl.acfc) = protocolStage ctrl proto x := by
  cases hc : ctrl.acfc with
  | false => exact demux_addressControl ctrl proto x
  | true => exact (demux_of_no_addressControl ctrl proto (h hc)).trans (absentAddress_of_acfc hc proto x)

/-- The high byte's bit 0 is the number's bit 8, the low byte's is its bit 0. -/
theorem field_byte_bits (n : Word16) :
    (n.extractLsb' 8 8).getLsbD 0 = n.getLsbD 8 ∧ (n.extractLsb' 0 8).getLsbD 0 = n.getLsbD 0 := by
  simp

/-- A well-formed number is read back, compressed or not (R191). -/
theorem protocolStage_wellFormed (ctrl : Ctrl) (proto : List ProtoEntry) {n : Word16} (info : List Byte)
    (hodd : n.getLsbD 0 = true) (heven : n.getLsbD 8 = false) :
    protocolStage ctrl proto (protocolField n ctrl.pfc ++ info) = dispatch proto n info := by
  obtain ⟨hhigh, hlow⟩ := field_byte_bits n
  rcases protocolField_cases n ctrl.pfc with ⟨hpfc, hle, -, e⟩ | e <;> rw [e]
  · exact (protocolStage_odd ctrl proto (hlow.trans hodd) info).trans
      ((compressedField_of_pfc hpfc proto _ info).trans (by rw [low_byte_setWidth hle]))
  · exact (protocolStage_even_odd ctrl proto (hhigh.trans heven) (hlow.trans hodd) info).trans (by rw [halfword_join])

/-- An even number with an even high byte is rejected (R185, R191). -/
theorem protocolStage_even_number (ctrl : Ctrl) (proto : List ProtoEntry) {n : Word16} (info : List Byte)
    (heven : n.getLsbD 0 = false) (heven' : n.getLsbD 8 = false) :
    protocolStage ctrl proto (protocolField n ctrl.pfc ++ info) = .discard .badProto := by
  obtain ⟨hhigh, hlow⟩ := field_byte_bits n
  rw [protocolField_full fun _ _ => heven]
  exact protocolStage_even_even ctrl proto (hhigh.trans heven') (hlow.trans heven) info

/-- A number with an odd high byte is read as a compressed field of that byte (R185, R191). -/
theorem protocolStage_odd_high_byte (ctrl : Ctrl) (proto : List ProtoEntry) {n : Word16} (info : List Byte)
    (hodd : n.getLsbD 8 = true) :
    protocolStage ctrl proto (protocolField n ctrl.pfc ++ info) =
      compressedField ctrl proto (n.extractLsb' 8 8) (n.extractLsb' 0 8 :: info) := by
  rw [protocolField_full fun _ hle => absurd (lt_toNat_of_bit8 hodd) (Nat.not_lt.2 hle)]
  exact protocolStage_odd ctrl proto ((field_byte_bits n).1.trans hodd) _

/-! ### From one block to the other -/

theorem exec_muxTx (n : Word16) (info : List Byte) (s : State) :
    exec (.muxTx n info) s = .next (s.submit (.mux n info)) := rfl

/-- A held submission of port MUX_TX is information, one of FR_TX a payload. -/
theorem port_ne_muxTx {held : List Submission} (h : ∀ m i, .mux m i ∉ held) : ∀ old ∈ held, old.port ≠ .muxTx
  | .fr _, _ => fun hp => (nomatch hp)
  | .mux m i, hm => absurd hm (h m i)

/-- An idle transmitter that holds no information accepts it (R182). -/
theorem exec_muxTx_idle {s : State} (n : Word16) (info : List Byte) (hq : s.txQueue = [])
    (hheld : ∀ m i, .mux m i ∉ s.held) : exec (.muxTx n info) s = .next (s.accept (.mux n info)) := by
  rw [exec_muxTx, s.submit_idle (sub := .mux n info) hq (port_ne_muxTx hheld)]

/-- What one block queues for a number, fed without its opening flag to another one after a flag: the content comes out, and
the receiver's stages read the number's field (R133, R184, R191). -/
theorem muxTx_received {s r t : State} {n : Word16} {info : List Byte} (hq : s.txQueue = [])
    (hheld : ∀ m i, .mux m i ∉ s.held) (hr : r.AfterFlag) (hctrl : r.ctrl = s.ctrl)
    (hn : n ≠ 0xFF03#16 ∨ s.ctrl.acfc = false) (ht : exec (.muxTx n info) s = .next t)
    (hfits : (txContent (protocolField n s.ctrl.pfc ++ info) s.ctrl.acfc).length + 2 ≤ r.config.rxBufLen) :
    execAll ((t.txQueue.drop 1).map .lineRx) r = .next { r with
      history := r.history ++ [.frRx (txContent (protocolField n s.ctrl.pfc ++ info) s.ctrl.acfc),
        protocolStage r.ctrl r.proto (protocolField n r.ctrl.pfc ++ info)] } := by
  rw [exec_muxTx_idle n info hq hheld] at ht
  cases ht
  rw [State.accept_txQueue]
  rw [← hctrl] at hn hfits ⊢
  have hplain : r.ctrl.acfc = true → ∀ p, protocolField n r.ctrl.pfc ++ info ≠ 0xFF#8 :: 0x03#8 :: p := by
    intro ha
    exact protocolField_append_ne_addressControl (hn.resolve_right (by simp [ha])) _ info
  rw [← demux_txContent r.proto hplain]
  exact execAll_lineForm_rest hr _ _ _ hfits

/-- Settles O55: the frame is received, the receiver's stages read a well-formed number back, and 0xFF03, whose bit 8 is set, is
not one. -/
theorem muxRoundTrip : Obligations.MuxRoundTrip := by
  unfold Obligations.MuxRoundTrip
  intro s r t n info hq hheld hr hctrl hodd heven ht hfits
  have hn : n ≠ 0xFF03#16 := by rintro rfl; simp at heven
  rw [muxTx_received hq hheld hr hctrl (.inl hn) ht hfits, protocolStage_wellFormed r.ctrl r.proto info hodd heven]

/-- Settles O56: the frame is received all the same, and the protocol field stage decides by the parity of the number's two
bytes. -/
theorem malformedNumbersFailTheRoundTrip : Obligations.MalformedNumbersFailTheRoundTrip := by
  unfold Obligations.MalformedNumbersFailTheRoundTrip
  intro s r t n info hq hheld hr hctrl ht hfits
  have received := fun hn => muxTx_received hq hheld hr hctrl hn ht hfits
  refine ⟨fun heven' heven => ?badProto, fun hodd hn hpfc => ?pfcOff, fun hodd hn hpfc => ?compressed⟩
  case badProto =>
    have hn : n ≠ 0xFF03#16 := by rintro rfl; simp at heven
    exact ⟨_, by rw [received (.inl hn), protocolStage_even_number r.ctrl r.proto info heven heven']⟩
  case pfcOff =>
    exact ⟨_, by rw [received hn, protocolStage_odd_high_byte r.ctrl r.proto info hodd,
      compressedField_of_no_pfc (hctrl ▸ hpfc)]⟩
  case compressed =>
    exact ⟨_, by rw [received hn, protocolStage_odd_high_byte r.ctrl r.proto info hodd,
      compressedField_of_pfc (hctrl ▸ hpfc)]⟩

end Sys2Proof.Machine

/-! SUPPORT. Transmit byte rows and the FCS check (30_encoding.md R81, 43_crc16.md R165 to R172): the rows build the line form,
and the register's linearity gives both forms of the check. -/

namespace Sys2Proof.Machine

/-- Settles O18: each row joins its line bytes to the queue by `pushLine`. -/
theorem transmitByteRowsStuff : Obligations.TransmitByteRowsStuff := by
  unfold Obligations.TransmitByteRowsStuff
  exact fun s => ⟨rfl, rfl, fun b _ => rfl, fun b => rfl⟩

/-- Settles O19: the rows of content and FCS join their stuffed bytes to the opening flag, and the closing flag completes the
line form. -/
theorem transmitRowsBuildTheLineForm : Obligations.TransmitRowsBuildTheLineForm := by
  unfold Obligations.TransmitRowsBuildTheLineForm
  intro s x hq
  exact ⟨_, execAll_txRow _ s, rfl, by rw [lineForm_eq, hq]; rfl⟩

/-! ### The register -/

/-- The register is linear in the old register and the byte together (R172). -/
theorem crcStep_xor (r r' : Word16) (b b' : Byte) :
    crcStep (r ^^^ r') (b ^^^ b') = crcStep r b ^^^ crcStep r' b' := by
  have hregroup : r ^^^ r' ^^^ (b ^^^ b').setWidth 16 = (r ^^^ b.setWidth 16) ^^^ (r' ^^^ b'.setWidth 16) := by
    rw [BitVec.setWidth_xor]
    ac_rfl
  simp only [crcStep, hregroup, crcShifts_xor]

/-- The byte can be told from the register it leaves (R172). -/
theorem crcStep_injective (r : Word16) : Function.Injective (crcStep r) := by
  intro b b' h
  have hwide : b.setWidth 16 = b'.setWidth 16 := (BitVec.xor_right_inj r).1 (crcShifts_injective 8 h)
  have hback : ∀ v : Byte, (v.setWidth 16).setWidth 8 = v := by simp
  rw [← hback b, hwide, hback]

/-- Contents that differ in their last byte have different FCS values (R172). -/
theorem fcs16_append_byte_injective (x : List Byte) : Function.Injective fun b => fcs16 (x ++ [b]) := by
  intro b b' h
  have hreg : crcReg (x ++ [b]) = crcReg (x ++ [b']) := (BitVec.xor_left_inj 0xFFFF#16).1 h
  rw [crcReg_append_byte, crcReg_append_byte] at hreg
  exact crcStep_injective _ hreg

/-- Settles O23: a shift is linear and loses nothing, so eight of them after the byte is brought in are, and on 16 bits
injective is bijective. -/
theorem crcIsLinearAndTellsTheLastByte : Obligations.CrcIsLinearAndTellsTheLastByte := by
  unfold Obligations.CrcIsLinearAndTellsTheLastByte
  exact ⟨crcStep_xor, Finite.injective_iff_bijective.1 crcShift_injective, fun r _ _ => (crcStep_injective r).ne,
    fun x _ _ => (fcs16_append_byte_injective x).ne⟩

/-! ### The residue -/

theorem crcShifts_add (j k : Nat) (r : Word16) : crcShifts (j + k) r = crcShifts k (crcShifts j r) := by
  induction j generalizing r with
  | zero => rw [Nat.zero_add]; rfl
  | succ j ih => rw [Nat.succ_add]; exact ih (crcShift r)

/-- A high byte is shifted down to the low byte, with no 1 dropped on the way. -/
theorem crcShifts_high_byte : ∀ b : Byte, crcShifts 8 (b ++ 0x00#8) = b.setWidth 16 := by decide +kernel

/-- A halfword is its high byte shifted up, xor its low byte. -/
theorem halfword_xor_split (r : Word16) :
    r = (r.extractLsb' 8 8 ++ 0x00#8) ^^^ (r.extractLsb' 0 8).setWidth 16 := by
  have key : ∀ hi lo : Byte, hi ++ lo = (hi ++ 0x00#8) ^^^ lo.setWidth 16 := by
    intro hi lo
    apply BitVec.eq_of_getLsbD_eq
    intro i h
    simp only [BitVec.getLsbD_xor, BitVec.getLsbD_append, BitVec.getLsbD_setWidth]
    by_cases hi' : i < 8
    · simp [hi', h]
    · simp [hi', BitVec.getLsbD_of_ge lo i (by omega)]
  conv_lhs => rw [← halfword_join r]
  exact key _ _

/-- The two bytes of a halfword, low byte first, are brought in as the whole halfword at once: the high byte waits for eight
shifts. -/
theorem crcStep_crcStep (q r : Word16) :
    crcStep (crcStep q (r.extractLsb' 0 8)) (r.extractLsb' 8 8) = crcShifts 16 (q ^^^ r) := by
  have hsplit : q ^^^ r = (q ^^^ (r.extractLsb' 0 8).setWidth 16) ^^^ (r.extractLsb' 8 8 ++ 0x00#8) := by
    conv_lhs => rw [halfword_xor_split r]
    ac_rfl
  rw [crcShifts_add 8 8, hsplit, crcShifts_xor 8 _ (_ ++ _), crcShifts_high_byte]
  rfl

/-- The register after a content and two more bytes. -/
theorem crcReg_append_halfword (c : List Byte) (r : Word16) :
    crcReg (c ++ [r.extractLsb' 0 8, r.extractLsb' 8 8]) = crcShifts 16 (crcReg c ^^^ r) := by
  rw [← crcStep_crcStep]
  simp [crcReg]

/-- The residue is what sixteen shifts make of the all-ones word. -/
theorem crcShifts_ones : crcShifts 16 0xFFFF#16 = 0xF0B8#16 := by decide +kernel

theorem fcs16_eq_iff (c : List Byte) (r : Word16) : fcs16 c = r ↔ crcReg c ^^^ r = 0xFFFF#16 := by
  rw [fcs16]
  constructor
  · rintro rfl
    rw [← BitVec.xor_assoc, BitVec.xor_self, BitVec.zero_xor]
  · intro h
    rw [← h, ← BitVec.xor_assoc, BitVec.xor_self, BitVec.zero_xor]

/-- Settles O24: the register over content and FCS bytes is sixteen shifts of what content register and FCS differ in; it is
the residue exactly when they differ in every bit. -/
theorem residueFormEqualsComparison : Obligations.ResidueFormEqualsComparison := by
  unfold Obligations.ResidueFormEqualsComparison
  intro c r
  have hcompare : fcsOk c r = true ↔ fcs16 c = r := decide_eq_true_iff
  refine ⟨hcompare, hcompare.trans ((fcs16_eq_iff c r).trans ?residue)⟩
  case residue => rw [crcReg_append_halfword, ← crcShifts_ones, (crcShifts_injective 16).eq_iff]

end Sys2Proof.Machine

/-! SUPPORT. Line rows and content rows as instructions (41_hdlc_receive.md R121 to R129, 44_ppp_mux.md R184 to R187): each
does its rule's pseudocode, and a content row emits one output. -/

namespace Sys2Proof.Machine

/-! ### line_rx rows -/

/-- Settles O43: a row does not look at its key; `append` has room or has not. -/
theorem lineRowsRunFromEveryState : Obligations.LineRowsRunFromEveryState := by
  unfold Obligations.LineRowsRunFromEveryState
  intro s b e
  refine ⟨rfl, rfl, rfl, rfl, fun hroom => ⟨?unescRoom, ?dataRoom⟩, fun hfull => ⟨?unescFull, ?dataFull⟩⟩
  case unescRoom => exact congrArg _ (State.appendRx_of_room (s := { s with rxEsc := false }) _ hroom)
  case dataRoom => exact congrArg _ (State.appendRx_of_room b hroom)
  case unescFull => exact congrArg _ (State.appendRx_of_full (s := { s with rxEsc := false }) _ hfull)
  case dataFull => exact congrArg _ (State.appendRx_of_full b hfull)

theorem exec_lrxClose (e : Bool) (s : State) : exec (.lrxClose e) s = .next s.closeFrame.clearRx := rfl

/-- Settles O44: a good frame closes with its content and what `demux` makes of it, which is what the content's row emits. -/
theorem goodFrameRunsItsContentRow : Obligations.GoodFrameRunsItsContentRow := by
  unfold Obligations.GoodFrameRunsItsContentRow
  intro s e c he ho hb
  rw [exec_lrxClose, exec_contentRow]
  simp [State.closeFrame, State.emits, State.clearRx, State.emit, he, ho, hb, closeOutputs_good]

/-! ### content_ac rows -/

theorem contentRow_of_no_addressControl {c : List Byte} (h : ∀ p, c ≠ 0xFF#8 :: 0x03#8 :: p) :
    contentRow c = .acAbsent c :=
  Laws.contentRow_absent c (Bool.eq_false_iff.2 fun hc => ((startsAddressControl_iff c).1 hc).elim h)

theorem exec_acPresent (p : List Byte) (s : State) :
    exec (.acPresent p) s = .next (s.emit (protocolStage s.ctrl s.proto p)) := rfl

theorem exec_acAbsent (c : List Byte) (s : State) :
    exec (.acAbsent c) s = .next (s.emit (absentAddress s.ctrl s.proto c)) := rfl

/-- Settles O51: a stripped content goes on with the row of its rest, a transparent one with the row of the whole. -/
theorem addressControlStage : Obligations.AddressControlStage := by
  unfold Obligations.AddressControlStage
  intro s
  refine ⟨fun _ => rfl, fun _ hc => contentRow_of_no_addressControl hc, fun p => ⟨_, exec_acPresent p s, exec_fieldRow s p⟩,
    fun c ha => ⟨_, ?transparent, exec_fieldRow s c⟩, fun c ha => ?noAc⟩
  case transparent => rw [exec_acAbsent, absentAddress_of_acfc ha]
  case noAc => rw [exec_acAbsent, absentAddress_of_no_acfc ha]; rfl

/-! ### content_pf rows -/

theorem exec_pfComp (p0 : Byte) (info : List Byte) (s : State) :
    exec (.pfComp p0 info) s = .next (s.emit (compressedField s.ctrl s.proto p0 info)) := rfl

theorem exec_pfFull (p0 p1 : Byte) (info : List Byte) (s : State) :
    exec (.pfFull p0 p1 info) s = .next (s.emit (dispatch s.proto (p0 ++ p1) info)) := rfl

theorem exec_pfBad (p : List Byte) (s : State) : exec (.pfBad p) s = .next (s.emit (badField p)) := rfl

theorem badField_of_short {p : List Byte} (h : p.length < 2) : badField p = .discard .short := if_pos h

theorem badField_of_two {p : List Byte} (h : 2 ≤ p.length) : badField p = .discard .badProto := if_neg (Nat.not_lt.2 h)

/-- A row whose fields pass the row's check is the row of its own bytes. -/
theorem fieldRow_encode {i : Instr} (hi : i.format = .contentPf) (h : i.wf 0 = true) : fieldRow (encode i) = i := by
  have hround := Laws.RoundTrip.all i 0 h
  rw [hi] at hround
  exact (Decoded.ok.inj hround).1

/-- Settles O52: what each row emits, by CTRL or by the number of bytes; and each row is the row of its own bytes when they have
the parity it stands for. -/
theorem protocolFieldStage : Obligations.ProtocolFieldStage := by
  unfold Obligations.ProtocolFieldStage
  intro s p0 p1 info p
  refine ⟨fun hp => ?pfcOff, fun hp => ?compressed, ?full, fun hp => ?short, fun hp => ?badProto, rfl,
    fun h0 => ?odd, fun h0 => ?alone, fun h0 h1 => ?evenOdd, fun h0 h1 => ?evenEven⟩
  case pfcOff => rw [exec_pfComp, compressedField_of_no_pfc hp]; rfl
  case compressed => rw [exec_pfComp, compressedField_of_pfc hp]; rfl
  case full => rw [exec_pfFull, append_eq_shift_or]; rfl
  case short => rw [exec_pfBad, badField_of_short hp]; rfl
  case badProto => rw [exec_pfBad, badField_of_two hp]; rfl
  case odd => exact fieldRow_encode (i := .pfComp p0 info) rfl h0
  case alone =>
    exact fieldRow_encode (i := .pfBad [p0]) rfl (by simp only [Instr.wf, protocolFieldBad, h0, Bool.not_false])
  case evenOdd =>
    exact fieldRow_encode (i := .pfFull p0 p1 info) rfl (by simp only [Instr.wf, h0, h1, Bool.not_false, Bool.and_self])
  case evenEven =>
    exact fieldRow_encode (i := .pfBad (p0 :: p1 :: info)) rfl
      (by simp only [Instr.wf, protocolFieldBad, h0, h1, Bool.not_false, Bool.and_self])

/-- A content row emits one output of M, whatever its bytes. -/
theorem exec_content_row {i : Instr} (hi : i.format = .contentAc ∨ i.format = .contentPf) (s : State) :
    ∃ o, exec i s = .next (s.emit o) ∧ MuxOutput s.proto o := by
  cases i with
  | acPresent p => exact ⟨_, exec_acPresent p s, protocolStage_output _ _ _⟩
  | acAbsent c => exact ⟨_, exec_acAbsent c s, absentAddress_output _ _ _⟩
  | pfComp p0 info => exact ⟨_, exec_pfComp p0 info s, compressedField_output _ _ _ _⟩
  | pfFull p0 p1 info => exact ⟨_, exec_pfFull p0 p1 info s, dispatch_output _ _ _⟩
  | pfBad p => exact ⟨_, exec_pfBad p s, badField_output _ _⟩
  | _ => rcases hi with hi | hi <;> cases hi

/-- Settles O54: a content row emits one output of M and does nothing else. -/
theorem muxWritesNoState : Obligations.MuxWritesNoState := by
  unfold Obligations.MuxWritesNoState
  exact fun i s hi => exec_content_row hi s

end Sys2Proof.Machine

/-! SUPPORT. Submissions and the queue (40_hdlc_send.md R102, R103, 44_ppp_mux.md R182): what an idle and a busy transmitter do
with a submission, the queue drained byte by byte, and the step that a held submission takes. -/

namespace Sys2Proof.Machine

/-! ### A submission -/

/-- While an older submission of the port is held, an idle transmitter accepts the oldest such and the new one holds (R62). -/
theorem State.submit_idle_behind {s : State} {sub old : Submission} {before after : List Submission} (hq : s.txQueue = [])
    (hs : s.held = before ++ old :: after) (hbefore : ∀ b ∈ before, b.port ≠ sub.port) (hp : old.port = sub.port) :
    s.submit sub = { s.accept old with held := before ++ after ++ [sub] } := by
  have hport : onPort sub.port old = true := decide_eq_true hp
  have hothers : ∀ b ∈ before, ¬ onPort sub.port b = true := fun b m => by simpa [onPort] using hbefore b m
  have hfind : s.held.find? (onPort sub.port) = some old :=
    List.find?_eq_some_iff_append.2 ⟨hport, before, after, hs, fun b m => by simpa using hothers b m⟩
  have herase : s.held.eraseP (onPort sub.port) = before ++ after := by
    rw [hs, List.eraseP_append_right _ hothers, List.eraseP_cons_of_pos hport]
  simp only [State.submit, if_pos hq, hfind, herase]
  rfl

theorem lineForm_ne_nil (x : List Byte) (accm : Word32) (acfc : Bool) : lineForm x accm acfc ≠ [] :=
  List.cons_ne_nil _ _

theorem State.txBusy_of_ne_nil {s : State} (h : s.txQueue ≠ []) : s.txBusy = true := by
  simpa [State.txBusy] using h

/-- After any submission the transmitter is busy (R102, R182). -/
theorem State.submit_txBusy (s : State) (sub : Submission) : (s.submit sub).txBusy = true := by
  refine State.txBusy_of_ne_nil ?_
  rcases s.submit_cases sub with ⟨-, -, e⟩ | ⟨_, _, _, -, -, -, -, e⟩ | ⟨hq, e⟩ <;> rw [e]
  · exact lineForm_ne_nil _ _ _
  · exact lineForm_ne_nil _ _ _
  · exact hq

/-- A list without payloads has none on port FR_TX. -/
theorem port_ne_frTx {held : List Submission} (h : ∀ x, .fr x ∉ held) : ∀ old ∈ held, old.port ≠ .frTx
  | .fr x, hm => absurd hm (h x)
  | .mux _ _, _ => fun hp => (nomatch hp)

/-- Settles O26: FR_TX is a submission on its port, of which the idle transmitter accepts the oldest. -/
theorem idleTransmitterAcceptsPayload : Obligations.IdleTransmitterAcceptsPayload := by
  unfold Obligations.IdleTransmitterAcceptsPayload
  intro s x hq
  rw [exec_frTx]
  refine ⟨fun hheld => ?free, fun before y after hs hbefore => ?behind, fun t ht => ?busy⟩
  case free => rw [s.submit_idle (sub := .fr x) hq (port_ne_frTx hheld)]; rfl
  case behind =>
    rw [State.submit_idle_behind (sub := .fr x) (old := .fr y) hq hs (port_ne_frTx hbefore) rfl]
    rfl
  case busy => cases ht; exact s.submit_txBusy _

/-- The protocol field, with its condition as R181 words it. -/
theorem protocolField_eq_ite (n : Word16) (pfc : Bool) :
    protocolField n pfc = if pfc = true ∧ n.toNat ≤ 0xFE ∧ n.getLsbD 0 = true then [n.extractLsb' 0 8]
      else [n.extractLsb' 8 8, n.extractLsb' 0 8] := by
  simp only [protocolField, Bool.and_eq_true, decide_eq_true_eq, and_assoc]

/-- Settles O27: MUX_TX is a submission on its port, of which the idle transmitter accepts the oldest, its payload the protocol
field and the information. -/
theorem idleTransmitterAcceptsInformation : Obligations.IdleTransmitterAcceptsInformation := by
  unfold Obligations.IdleTransmitterAcceptsInformation
  intro s n info hq
  rw [← protocolField_eq_ite, exec_muxTx]
  refine ⟨fun hheld => ?free, fun before m i after hs hbefore => ?behind, fun t ht => ?busy⟩
  case free => rw [s.submit_idle (sub := .mux n info) hq (port_ne_muxTx hheld)]; rfl
  case behind =>
    rw [State.submit_idle_behind (sub := .mux n info) (old := .mux m i) hq hs (port_ne_muxTx hbefore) rfl]
    rfl
  case busy => cases ht; exact s.submit_txBusy _

section Busy
variable {s : State} (hq : s.txQueue ≠ [])
include hq

theorem exec_frTx_busy (x : List Byte) : exec (.frTx x) s = .next (s.hold (.fr x)) := by
  rw [exec_frTx, s.submit_busy hq]

theorem exec_muxTx_busy (n : Word16) (info : List Byte) : exec (.muxTx n info) s = .next (s.hold (.mux n info)) := by
  rw [exec_muxTx, s.submit_busy hq]

end Busy

/-- Settles O28: a busy transmitter holds a submission, which changes the list of held ones only. -/
theorem busyTransmitterHoldsSubmission : Obligations.BusyTransmitterHoldsSubmission := by
  unfold Obligations.BusyTransmitterHoldsSubmission
  exact fun s hq => ⟨fun x => ⟨_, exec_frTx_busy hq x, rfl⟩, fun n info => ⟨_, exec_muxTx_busy hq n info, rfl⟩⟩

/-! ### The queue drained -/

/-- Settles O30, by induction on the queue: each TXSTEP takes its first byte. -/
theorem drainEmitsTheQueueInOrder : Obligations.DrainEmitsTheQueueInOrder := by
  unfold Obligations.DrainEmitsTheQueueInOrder
  intro s
  generalize hq : s.txQueue = q
  induction q generalizing s with
  | nil =>
    have hsame : { s with txQueue := [], history := s.history } = s := by rw [← hq]
    rw [List.map_nil, List.append_nil, hsame]
    rfl
  | cons b q ih =>
    have hbyte : exec .txstep s = .next { s with txQueue := q, history := s.history ++ [.lineTx b] } := by
      rw [exec_txstep, State.sendByte_cons hq]
    rw [List.length_cons, List.replicate_succ, execAll_cons_next hbyte, ih _ rfl]
    simp

/-- What every instruction of a list keeps holds after the list. -/
theorem execAll_keep {P : State → Prop} {is : List Instr} (hexec : ∀ i ∈ is, ∀ s t, P s → exec i s = .next t → P t)
    {s t : State} (h : P s) (ht : execAll is s = .next t) : P t := by
  induction is generalizing s with
  | nil => cases ht; exact h
  | cons i is ih =>
    unfold execAll at ht
    split at ht
    case h_1 s' hs =>
      have hs' : P s' := hexec i List.mem_cons_self s s' h hs
      exact ih (fun j hj => hexec j (List.mem_cons_of_mem i hj)) hs' ht
    all_goals cases ht

/-- The line bytes sent and then those still queued. -/
def State.lineBytes (s : State) : List Byte := lineTxBytes s.history ++ s.txQueue

/-- TXSTEP moves a byte from the queue to the line. -/
theorem State.sendByte_lineBytes (s : State) : s.sendByte.lineBytes = s.lineBytes := by
  rcases s.sendByte_cases with ⟨-, e⟩ | ⟨b, q, hq, e⟩ <;> rw [e]
  simp [State.lineBytes, lineTxBytes, hq]

/-- The other events of O31 leave the queue alone and send nothing. -/
theorem exec_traffic_lineBytes {i : Instr} {s t : State} (ht : exec i s = .next t)
    (hi : i = .txstep ∨ (∃ b, i = .lineRx b) ∨ (∃ off d, i = .hostWr off d) ∨ (∃ off, i = .hostRd off)) :
    t.lineBytes = s.lineBytes := by
  rcases hi with rfl | ⟨b, rfl⟩ | ⟨off, d, rfl⟩ | ⟨off, rfl⟩
  · cases ht
    exact s.sendByte_lineBytes
  · rw [exec_lineRx] at ht
    cases ht
    obtain ⟨-, -, -, -, hqueue, -, -, -, hline⟩ := lineNext_frame b s
    rw [State.lineBytes, hqueue, hline, State.lineBytes]
  · rw [exec_hostWr] at ht
    cases ht
    obtain ⟨-, -, -, -, -, hqueue, hhistory, -⟩ := s.writeReg_frame d (regSelect s.config.nproto off)
    rw [State.lineBytes, hqueue, hhistory, State.lineBytes]
  · rw [exec_hostRd] at ht
    cases ht
    simp [State.lineBytes, lineTxBytes]

/-- Settles O31: sent and queued bytes together are kept by each instruction, so by the run. -/
theorem frameInTransmissionKeepsItsBytes : Obligations.FrameInTransmissionKeepsItsBytes := by
  unfold Obligations.FrameInTransmissionKeepsItsBytes
  intro is s t hevents ht
  exact execAll_keep (P := fun u => u.lineBytes = s.lineBytes)
    (fun i hi _ _ hkept hexec => (exec_traffic_lineBytes hexec (hevents i hi)).trans hkept) rfl ht

/-! ### Whose step it is -/

section Awaiting
variable {s : State} (ha : s.awaiting = true)
include ha

/-- With `order` used up the held submission goes first (R102). -/
theorem step_of_order_nil (ho : s.order = []) : step s = .next s.acceptOldest := by
  rcases decodeEvent_total s.input with hi | ⟨i, rest, hi⟩
  · rw [step_of_no_input hi, if_pos ha]
  · simp [step, nextEvent, recordTurn, hi, ha, ho]

/-- Where a record waits, an entry of `order` can give the step to the held submission (log 4). -/
theorem step_of_submission_turn {o : List Turn} (ho : s.order = .submission :: o) (hi : s.input ≠ []) :
    step s = .next (State.acceptOldest { s with order := o }) := by
  obtain ⟨i, rest, hd⟩ := (decodeEvent_total s.input).resolve_left hi
  simp [step, nextEvent, recordTurn, hd, ha, ho]

end Awaiting

theorem State.awaiting_of_held {s : State} {sub : Submission} {rest : List Submission} (hq : s.txQueue = [])
    (hh : s.held = sub :: rest) : s.awaiting = true := s.awaiting_iff.2 ⟨hq, sub, rest, hh⟩

/-- The step of a held submission, when `order` is used up or no record waits (R102). -/
theorem step_accepts_held {s : State} {sub : Submission} {rest : List Submission} (hq : s.txQueue = [])
    (hh : s.held = sub :: rest) (ho : s.order = [] ∨ s.input = []) :
    step s = .next { s with held := rest, txQueue := lineForm (sub.payload s.ctrl.pfc) s.accm s.ctrl.acfc } := by
  have ha := State.awaiting_of_held hq hh
  rw [← s.acceptOldest_cons hh]
  rcases ho with ho | hi
  · exact step_of_order_nil ha ho
  · rw [step_of_no_input hi, if_pos ha]

/-- Settles O36: the oldest held submission is accepted, its step given by `order` or by default. -/
theorem heldSubmissionIsAcceptedAtFirstIdleStep : Obligations.HeldSubmissionIsAcceptedAtFirstIdleStep := by
  unfold Obligations.HeldSubmissionIsAcceptedAtFirstIdleStep
  intro s sub rest hq hh
  refine ⟨step_accepts_held hq hh, fun o ho hi => ?turn⟩
  case turn =>
    rw [step_of_submission_turn (State.awaiting_of_held hq hh) ho hi]
    exact congrArg _ (State.acceptOldest_cons { s with order := o } hh)

theorem steps_succ_of_step {k : Nat} {s t : State} (h : step s = .next t) : steps (k + 1) s = steps k t := by
  simp only [steps, h]

/-- With nothing presented, a step on a queue that is not empty sends its first byte (log 4). -/
theorem step_drains {s : State} {b : Byte} {q : List Byte} (hi : s.input = []) (hq : s.txQueue = b :: q) :
    step s = .next { s with txQueue := q, history := s.history ++ [.lineTx b] } := by
  have hne : s.txQueue ≠ [] := by simp [hq]
  rw [step_of_no_input hi, s.not_awaiting_iff.2 (.inl hne), if_neg Bool.false_ne_true, if_neg hne, exec_txstep,
    State.sendByte_cons hq]

/-- Settles O38, by induction on the queue: each step sends a byte, and the step after the last one accepts. -/
theorem heldSubmissionIsAcceptedAfterDrain : Obligations.HeldSubmissionIsAcceptedAfterDrain := by
  unfold Obligations.HeldSubmissionIsAcceptedAfterDrain
  intro s sub rest hi hh
  generalize hq : s.txQueue = q
  induction q generalizing s with
  | nil =>
    rw [List.length_nil, steps_succ_of_step (step_accepts_held hq hh (.inr hi))]
    simp [steps]
  | cons b q ih =>
    rw [List.length_cons, steps_succ_of_step (step_drains hi hq)]
    have hrest := ih { s with txQueue := q, history := s.history ++ [.lineTx b] } hi hh rfl
    rw [hrest]
    simp

/-- Settles O8: a record's step runs its instruction when no held submission can be accepted, and when `order` says so. -/
theorem stepRunsTheDecodedRecord : Obligations.StepRunsTheDecodedRecord := by
  unfold Obligations.StepRunsTheDecodedRecord
  intro s i rest hd
  refine ⟨fun hfetch => step_of_decode (s.not_awaiting_iff.2 hfetch) hd, fun o hq hh ho => ?turn⟩
  case turn =>
    obtain ⟨sub, held, hs⟩ := List.exists_cons_of_ne_nil hh
    exact step_of_record_turn (State.awaiting_of_held hq hs) ho hd

end Sys2Proof.Machine

/-! SUPPORT. What an instruction can do to the state, said once for the whole table, and what follows for the registers, the
queue and the held submissions (20_memory.md sections 1 and 4, 60_exceptions.md sections 1 and 3). -/

namespace Sys2Proof.Machine

/-! ### Completion -/

/-- Every row but RESERVED completes (R240). -/
theorem exec_completes {i : Instr} (hi : ∀ v, i ≠ .reserved v) (s : State) : ∃ t, exec i s = .next t := by
  cases i with
  | lineRx b => exact ⟨_, exec_lineRx b s⟩
  | hostWr off d => exact ⟨_, exec_hostWr off d s⟩
  | hostRd off => exact ⟨_, exec_hostRd off s⟩
  | reserved v => exact absurd rfl (hi v)
  | _ => exact ⟨_, rfl⟩

/-- What RESERVED answers does not depend on the state (R244). -/
theorem exec_reserved_state (v : Verdict) (s s' : State) : exec (.reserved v) s = exec (.reserved v) s' := by
  cases v <;> rfl

/-- Settles O59: of what a step can do, only the instruction of a reserved or truncated record stops. -/
theorem onlyReservedStops : Obligations.OnlyReservedStops := by
  unfold Obligations.OnlyReservedStops
  refine ⟨fun i s hi => exec_completes hi s, fun s => ?step⟩
  case step =>
    rcases step_cases s with ⟨i, rest, o, hd, e, -⟩ | ⟨o, -, e, -⟩ | ⟨-, -, e⟩ | ⟨-, -, -, e⟩
    · by_cases hi : ∃ v, i = .reserved v
      · obtain ⟨v, rfl⟩ := hi
        exact .inr ⟨v, rest, hd, fun s' => (exec_reserved_state v s' _).trans e.symm⟩
      · obtain ⟨t, ht⟩ := exec_completes (fun v hv => hi ⟨v, hv⟩) { s with input := rest, order := o }
        exact .inl ⟨t, e.trans ht⟩
    · exact .inl ⟨_, e⟩
    · exact .inl ⟨_, e.trans (exec_txstep s)⟩
    · exact .inl ⟨_, e⟩

/-! ### The effect of an instruction -/

/-- At most the receive fields and the history differ. -/
def ReceiveOnly (s t : State) : Prop :=
  t = { s with rxMode := t.rxMode, rxEsc := t.rxEsc, rxOvf := t.rxOvf, rxBuf := t.rxBuf, history := t.history }

theorem appendRx_receiveOnly (s : State) (v : Byte) : ReceiveOnly s (s.appendRx v) := by
  unfold ReceiveOnly
  rcases s.appendRx_cases v with ⟨-, e⟩ | ⟨-, e⟩ <;> rw [e]

theorem appendRx_unescaped_receiveOnly (s : State) (v : Byte) :
    ReceiveOnly s (State.appendRx { s with rxEsc := false } v) := by
  unfold ReceiveOnly
  rcases State.appendRx_cases { s with rxEsc := false } v with ⟨-, e⟩ | ⟨-, e⟩ <;> rw [e]

/-- LINE_RX stays on the receive path (20_memory.md section 1). -/
theorem lineNext_receiveOnly (b : Byte) (s : State) : ReceiveOnly s (lineNext b s) := by
  rcases exec_lineRx_cases b s with ⟨-, -, e⟩ | ⟨-, -, e⟩ | ⟨-, -, e⟩ | ⟨-, -, -, e⟩ | ⟨-, -, -, e⟩ |
      ⟨-, -, -, -, e⟩ <;> rw [lineNext_of_exec e]
  · rfl
  · rfl
  · rfl
  · exact appendRx_unescaped_receiveOnly s _
  · rfl
  · exact appendRx_receiveOnly s b

/-- A submission emits nothing (R102, R182). -/
theorem State.submit_history (s : State) (sub : Submission) : (s.submit sub).history = s.history := by
  rw [s.submit_frame sub]

/-- Settles O60: a submission and TXSTEP have their frames, LINE_RX has its own and sends nothing on the line. -/
theorem transmitAndReceiveAreIndependent : Obligations.TransmitAndReceiveAreIndependent := by
  unfold Obligations.TransmitAndReceiveAreIndependent
  refine ⟨fun i s t hi ht => ?transmit, fun b s t ht => ?receive⟩
  case transmit =>
    rcases hi with rfl | ⟨x, rfl⟩ | ⟨n, info, rfl⟩ <;> cases ht
    · rcases s.sendByte_cases with ⟨-, e⟩ | ⟨b, q, -, e⟩ <;> rw [e]
    · rw [State.submit_history]
      exact s.submit_frame _
    · rw [State.submit_history]
      exact s.submit_frame _
  case receive =>
    rw [exec_lineRx] at ht
    cases ht
    obtain ⟨-, -, -, -, -, -, -, -, hline⟩ := lineNext_frame b s
    exact ⟨lineNext_receiveOnly b s, hline⟩

/-- All that an instruction can do: one way to change the state for each kind of row. -/
inductive Effect (i : Instr) (s : State) : State → Prop
  | reset (hi : i = .reset) : Effect i s s.toReset
  | send (hi : i = .txstep) : Effect i s s.sendByte
  | submit {sub : Submission} (hsub : submitted i = [sub]) : Effect i s (s.submit sub)
  | write (d : Word32) (r : RegSel) (hsub : submitted i = []) (hi : (∃ off d, i = .hostWr off d) ∨ i.format = .hostWr) :
      Effect i s (s.writeReg d r)
  | push {bs : List Byte} (hsub : submitted i = []) (hi : i.format = .txByte) : Effect i s (s.pushLine bs)
  | receive {t : State} (hsub : submitted i = []) (ht : ReceiveOnly s t) : Effect i s t

/-- Each row that completes has the effect of its kind. -/
theorem exec_effect {i : Instr} {s t : State} (ht : exec i s = .next t) : Effect i s t := by
  cases i with
  | reset => cases ht; exact .reset rfl
  | txstep => cases ht; exact .send rfl
  | frTx _ | muxTx _ _ => cases ht; exact .submit rfl
  | hostWr off d => rw [exec_hostWr] at ht; cases ht; exact .write d _ rfl (.inl ⟨off, d, rfl⟩)
  | wrAccm d | wrCtrl d | wrStatus d | wrProto _ d | wrUnmapped _ d => cases ht; exact .write d _ rfl (.inr rfl)
  | txbFlag | txbEsc | txbCtrl _ | txbLit _ => cases ht; exact .push rfl rfl
  | lineRx b => rw [exec_lineRx] at ht; cases ht; exact .receive rfl (lineNext_receiveOnly b s)
  | lrxUnesc b => cases ht; exact .receive rfl (appendRx_unescaped_receiveOnly s _)
  | lrxData b => cases ht; exact .receive rfl (appendRx_receiveOnly s b)
  | hostRd off => rw [exec_hostRd] at ht; cases ht; exact .receive rfl rfl
  | reserved v => cases v <;> cases ht
  | lrxHuntFlag _ | lrxHuntSkip _ _ | lrxClose _ | lrxEsc | acPresent _ | acAbsent _ | pfComp _ _ | pfFull _ _ _ | pfBad _
  | rdAccm | rdCtrl | rdStatus | rdProto _ | rdUnmapped _ => cases ht; exact .receive rfl rfl

/-- TXSTEP changes nothing but these (R103). -/
theorem State.sendByte_frame (s : State) :
    s.sendByte = { s with txQueue := s.sendByte.txQueue, history := s.sendByte.history } := by
  rcases s.sendByte_cases with ⟨-, e⟩ | ⟨b, q, -, e⟩ <;> rw [e]

/-- No instruction touches the records still to come (log 2) nor the parameters (log 1). -/
theorem Effect.input_config {i : Instr} {s t : State} (h : Effect i s t) : t.input = s.input ∧ t.config = s.config := by
  cases h with
  | reset => exact ⟨rfl, rfl⟩
  | send => rw [State.sendByte_frame]; exact ⟨rfl, rfl⟩
  | submit => rw [State.submit_frame]; exact ⟨rfl, rfl⟩
  | write d r =>
    obtain ⟨hconfig, -, -, -, -, -, -, hinput, -⟩ := s.writeReg_frame d r
    exact ⟨hinput, hconfig⟩
  | push => exact ⟨rfl, rfl⟩
  | receive _ ht => rw [ht]; exact ⟨rfl, rfl⟩

/-- Settles O16: of the kinds of effect only RESET and a register write touch a register. -/
theorem onlyResetAndHostWritesChangeRegisters : Obligations.OnlyResetAndHostWritesChangeRegisters := by
  unfold Obligations.OnlyResetAndHostWritesChangeRegisters
  intro i s t ht
  have heffect := exec_effect ht
  obtain ⟨-, hconfig⟩ := heffect.input_config
  refine ⟨hconfig, fun ⟨hreset, hwr, hrow⟩ => ?_⟩
  cases heffect with
  | reset hi => exact absurd hi hreset
  | send => rw [State.sendByte_frame]; exact ⟨rfl, rfl, rfl⟩
  | submit => rw [State.submit_frame]; exact ⟨rfl, rfl, rfl⟩
  | write d r hsub hi => exact hi.elim (fun ⟨off, d, h⟩ => absurd h (hwr off d)) (absurd · hrow)
  | push => exact ⟨rfl, rfl, rfl⟩
  | receive _ ht => rw [ht]; exact ⟨rfl, rfl, rfl⟩

/-- Settles O34: a submission holds while the queue is not empty, and of the other effects only those named touch it. -/
theorem holdIsLiftedOnlyByTxstepOrReset : Obligations.HoldIsLiftedOnlyByTxstepOrReset := by
  unfold Obligations.HoldIsLiftedOnlyByTxstepOrReset
  intro i s t ht hq hchanged
  cases exec_effect ht with
  | reset hi => exact .inr (.inl hi)
  | send hi => exact .inl hi
  | submit => exact absurd (by rw [s.submit_busy hq, State.hold_txQueue]) hchanged
  | write d r =>
    obtain ⟨-, -, -, -, -, hqueue, -⟩ := s.writeReg_frame d r
    exact absurd hqueue hchanged
  | push _ hi => exact .inr (.inr ⟨hi, by simp [hq]⟩)
  | receive _ ht => exact absurd (by rw [ht]) hchanged

/-! ### Held submissions -/

/-- An instruction that presents no submission leaves the held ones alone. -/
theorem Effect.held_of_no_submission {i : Instr} {s t : State} (h : Effect i s t) (hsub : submitted i = []) :
    t.held = s.held := by
  cases h with
  | reset => rfl
  | send => rw [State.sendByte_frame]
  | submit hsub' => simp [hsub] at hsub'
  | write d r =>
    obtain ⟨-, -, -, -, -, -, -, -, hheld⟩ := s.writeReg_frame d r
    exact hheld
  | push => rfl
  | receive _ ht => rw [ht]

/-- An instruction presents no submission, or is one. -/
theorem exec_submission {i : Instr} {s t : State} (ht : exec i s = .next t) :
    submitted i = [] ∨ ∃ sub, submitted i = [sub] ∧ t = s.submit sub := by
  cases i with
  | frTx x => cases ht; exact .inr ⟨_, rfl, rfl⟩
  | muxTx n info => cases ht; exact .inr ⟨_, rfl, rfl⟩
  | _ => exact .inl rfl

/-- Settles O35: a submission holds behind the older ones, and no other instruction touches them. -/
theorem heldSubmissionIsKept : Obligations.HeldSubmissionIsKept := by
  unfold Obligations.HeldSubmissionIsKept
  intro s hq
  refine ⟨exec_frTx_busy hq, exec_muxTx_busy hq, fun i t ht => ?_⟩
  rcases exec_submission ht with hsub | ⟨sub, hsub, rfl⟩
  · rw [(exec_effect ht).held_of_no_submission hsub, hsub, List.append_nil]
  · rw [hsub, s.submit_busy hq, State.hold_held]

/-- R62 on one port, from one state to another: the accepted and then the held are the held and then the presented, and at most
one is accepted, whole, by an idle transmitter. -/
def PortOrder (p : TxPort) (s t : State) (presented : List Submission) : Prop :=
  ∃ accepted : List Submission,
    accepted ++ t.held.filter (onPort p) = s.held.filter (onPort p) ++ presented ∧
    (accepted = [] ∨ ∃ a, accepted = [a] ∧ s.txQueue = [] ∧
      t.txQueue = lineForm (a.payload s.ctrl.pfc) s.accm s.ctrl.acfc)

theorem portOrder_of_held_eq {s t : State} (p : TxPort) (h : t.held = s.held) : PortOrder p s t [] :=
  ⟨[], by simp [h], .inl rfl⟩

theorem filter_onPort_nil {p : TxPort} {l : List Submission} (h : ∀ b ∈ l, b.port ≠ p) : l.filter (onPort p) = [] :=
  List.filter_eq_nil_iff.2 fun b hb => by simpa [onPort] using h b hb

theorem filter_onPort_singleton (p : TxPort) (sub : Submission) :
    [sub].filter (onPort p) = if sub.port = p then [sub] else [] := by
  by_cases h : sub.port = p <;> simp [onPort, h]

/-- A submission keeps the order of every port: its own port's oldest is accepted, or it holds behind the others. -/
theorem submit_portOrder (p : TxPort) (s : State) (sub : Submission) :
    PortOrder p s (s.submit sub) ([sub].filter (onPort p)) := by
  rw [filter_onPort_singleton]
  rcases s.submit_cases sub with ⟨hq, hnone, e⟩ | ⟨before, old, after, hq, hs, hbefore, hp, e⟩ | ⟨-, e⟩ <;> rw [e]
  · by_cases hport : sub.port = p
    · rw [if_pos hport]
      have hempty : s.held.filter (onPort p) = [] := filter_onPort_nil (hport ▸ hnone)
      exact ⟨[sub], by simp [hempty], .inr ⟨sub, rfl, hq, rfl⟩⟩
    · rw [if_neg hport]
      exact portOrder_of_held_eq p rfl
  · by_cases hport : sub.port = p
    · rw [if_pos hport]
      have hempty : before.filter (onPort p) = [] := filter_onPort_nil (hport ▸ hbefore)
      have hold : onPort p old = true := decide_eq_true (hp.trans hport)
      have hnew : onPort p sub = true := decide_eq_true hport
      exact ⟨[old], by simp [hs, hempty, hold, hnew], .inr ⟨old, rfl, hq, rfl⟩⟩
    · rw [if_neg hport]
      have hold : onPort p old = false := decide_eq_false (hp ▸ hport)
      have hnew : onPort p sub = false := decide_eq_false hport
      exact ⟨[], by simp [hs, hold, hnew], .inl rfl⟩
  · refine ⟨[], ?_, .inl rfl⟩
    rw [List.nil_append, State.hold_held, List.filter_append, filter_onPort_singleton]

/-- The step that accepts the oldest held submission keeps the order of every port. -/
theorem acceptOldest_portOrder (p : TxPort) {s : State} (ha : s.awaiting = true) : PortOrder p s s.acceptOldest [] := by
  obtain ⟨hq, sub, rest, hh⟩ := s.awaiting_iff.1 ha
  rw [s.acceptOldest_cons hh]
  by_cases hport : sub.port = p
  · have hsub : onPort p sub = true := decide_eq_true hport
    exact ⟨[sub], by simp [hh, hsub], .inr ⟨sub, rfl, hq, rfl⟩⟩
  · have hsub : onPort p sub = false := decide_eq_false hport
    exact ⟨[], by simp [hh, hsub], .inl rfl⟩

theorem exec_portOrder (p : TxPort) {i : Instr} {s t : State} (ht : exec i s = .next t) :
    PortOrder p s t ((submitted i).filter (onPort p)) := by
  rcases exec_submission ht with hsub | ⟨sub, hsub, rfl⟩ <;> rw [hsub]
  · exact portOrder_of_held_eq p ((exec_effect ht).held_of_no_submission hsub)
  · exact submit_portOrder p s sub

theorem State.acceptOldest_input (s : State) : s.acceptOldest.input = s.input := by
  unfold State.acceptOldest
  split <;> rfl

/-- A step keeps the order of every port, and presents at most the submission of the record it takes. -/
theorem step_portOrder (p : TxPort) {s t : State} (ht : step s = .next t) :
    ∃ presented, PortOrder p s t presented ∧ (presented = [] ∧ t.input = s.input ∨
      ∃ i rest, decodeEvent s.input = .ok i rest ∧ t.input = rest ∧ presented = (submitted i).filter (onPort p)) := by
  rcases step_cases s with ⟨i, rest, o, hd, e, -⟩ | ⟨o, ha, e, -⟩ | ⟨-, -, e⟩ | ⟨-, -, -, e⟩ <;> rw [e] at ht
  · obtain ⟨hinput, -⟩ := (exec_effect ht).input_config
    exact ⟨_, exec_portOrder p (s := { s with input := rest, order := o }) ht, .inr ⟨i, rest, hd, hinput, rfl⟩⟩
  · cases ht
    exact ⟨[], acceptOldest_portOrder (s := { s with order := o }) p ha, .inl ⟨rfl, State.acceptOldest_input _⟩⟩
  · obtain ⟨hinput, -⟩ := (exec_effect ht).input_config
    exact ⟨[], exec_portOrder p ht, .inl ⟨rfl, hinput⟩⟩
  · cases ht
    exact ⟨[], portOrder_of_held_eq p rfl, .inl ⟨rfl, rfl⟩⟩

/-- Settles O37: instructions and steps keep the order of each port. -/
theorem eachPortKeepsItsOrder : Obligations.EachPortKeepsItsOrder := by
  unfold Obligations.EachPortKeepsItsOrder
  refine ⟨fun p _ _ _ ht => exec_portOrder p ht, fun p s t ht => ?step⟩
  case step =>
    obtain ⟨presented, ⟨accepted, horder, hone⟩, hinput⟩ := step_portOrder p ht
    exact ⟨accepted, presented, horder, hone, hinput⟩

end Sys2Proof.Machine

/-! SUPPORT. Registers and RESET (45_host_interface.md R211 to R220, 70_reset_and_hazards.md R270, R271): what a register reads
after a write and after RESET, and what traffic does right after RESET. -/

namespace Sys2Proof.Machine

/-! ### A read after a write -/

/-- A write of one register changes the value of no other. -/
theorem State.readReg_writeReg_of_ne (s : State) (d : Word32) {r r' : RegSel} (h : r' ≠ r) :
    (s.writeReg d r).readReg r' = s.readReg r' := by
  rcases s.writeReg_cases d r with ⟨hr, e⟩ | ⟨hr, e⟩ | ⟨i, hr, -, e⟩ | e <;> rw [e]
  · cases r' with
    | accm => exact absurd hr.symm h
    | _ => rfl
  · cases r' with
    | ctrl => exact absurd hr.symm h
    | _ => rfl
  · cases r' with
    | proto j =>
      have hij : i.toNat ≠ j.toNat := fun hij => h (by rw [hr, BitVec.eq_of_toNat_eq hij])
      simp only [State.readReg, State.protoWord, List.getElem?_set_ne hij]
    | _ => rfl

/-- A written entry of the table reads its writable bits back (R214, R219). -/
theorem State.readReg_setProto {s : State} (hlen : s.proto.length = s.config.nproto) {i : BitVec 4}
    (hi : i.toNat < s.config.nproto) (d : Word32) : (s.setProto i d).readReg (.proto i) = d &&& 0x8000FFFF#32 := by
  rw [State.setProto_of_lt hi, ← ProtoEntry.word_ofWord]
  exact State.protoWord_of_getElem? hi (List.getElem?_set_self (hlen ▸ hi))

/-- Settles O14: the written register keeps its writable bits; two offsets that are not equal select different registers, or
none. -/
theorem hostReadAfterWrite : Obligations.HostReadAfterWrite := by
  unfold Obligations.HostReadAfterWrite
  intro s t off off' d hlen ht
  rw [exec_hostWr] at ht
  cases ht
  by_cases hoff : off' = off
  · subst hoff
    rw [if_pos rfl]
    generalize hr : regSelect s.config.nproto off' = r
    cases r with
    | accm => rfl
    | ctrl => exact Ctrl.word_ofWord d
    | status => rfl
    | proto i => exact State.readReg_setProto hlen (regSelect_proto_lt hr) d
    | unmapped => rfl
  · rw [if_neg hoff]
    by_cases hsel : regSelect s.config.nproto off' = regSelect s.config.nproto off
    · have hnone : regSelect s.config.nproto off' = .unmapped :=
        Classical.not_not.1 fun hr => hoff (regSelect_injective hr hsel)
      rw [hnone]
      rfl
    · exact s.readReg_writeReg_of_ne d hsel

/-- Settles O13: neither an unmapped row nor RESERVED looks at its field, and an index beyond the table is ignored and reads
0. -/
theorem hostRowsDoNotTestTheirFieldAgain : Obligations.HostRowsDoNotTestTheirFieldAgain := by
  unfold Obligations.HostRowsDoNotTestTheirFieldAgain
  intro s d
  refine ⟨fun _ => rfl, fun _ => rfl, fun i hi => ⟨?write, ?read⟩, fun c => exec_reservedCode c s,
    fun r => exec_truncated r s⟩
  case write => exact congrArg _ (State.setProto_of_not_lt (Nat.not_lt.2 hi) d)
  case read =>
    have hzero : s.protoWord i = 0x00000000#32 := if_neg (Nat.not_lt.2 hi)
    exact congrArg (fun v => Host.Outcome.next (s.emit (.hostRd v))) hzero

/-! ### After RESET -/

/-- After RESET every entry of the table, and every index beyond it, reads 0 (R26, R270). -/
theorem State.toReset_protoWord (s : State) (i : BitVec 4) : s.toReset.protoWord i = 0x00000000#32 := by
  by_cases hi : i.toNat < s.config.nproto
  · have hentry : s.toReset.proto[i.toNat]? = some { valid := false, num := 0x0000#16 } := by simp [hi]
    rw [State.protoWord_of_getElem? (s := s.toReset) hi hentry]
    decide
  · exact if_neg hi

/-- RESET of the reset state changes nothing. -/
theorem State.toReset_resetWith (c : Config) : (State.resetWith c).toReset = State.resetWith c := rfl

/-- Settles O2: the reset state is one that RESET leaves. -/
theorem stateAfterResetHoldsDocumentedValues : Obligations.StateAfterResetHoldsDocumentedValues := by
  unfold Obligations.StateAfterResetHoldsDocumentedValues
  have hctrl : Ctrl.word { acfc := false, pfc := false } = 0x00000000#32 := by decide
  refine ⟨rfl, fun c => ?_⟩
  rw [← State.toReset_resetWith]
  exact ⟨rfl, hctrl, State.toReset_statusWord _, State.toReset_protoWord _, rfl, rfl, rfl, rfl, rfl⟩

/-- Settles O57: the reset state with legal parameters has the invariant, and the reference parameters are legal. -/
theorem invariantHoldsAtReset : Obligations.InvariantHoldsAtReset := by
  unfold Obligations.InvariantHoldsAtReset
  exact ⟨State.resetWith_inv (by decide), fun _ => State.resetWith_inv⟩

/-- In HUNT, line bytes without a flag change nothing (R122). -/
theorem execAll_lineRx_hunt {s : State} (hm : s.rxMode = .hunt) {y : List Byte} (hy : flagByte ∉ y) :
    execAll (y.map .lineRx) s = .next s := by
  induction y with
  | nil => rfl
  | cons b y ih =>
    obtain ⟨hb, hy⟩ := not_or.1 (mt List.mem_cons.2 hy)
    have hskip : exec (.lineRx b) s = .next s := by rw [exec_lineRx_hunt hm, if_neg (Ne.symm hb)]
    rw [List.map_cons, execAll_cons_next hskip, ih hy]

/-- Settles O3: RESET leaves an empty queue, the receiver in HUNT and the reset register values, with which the next submission
is accepted, a held one first. -/
theorem resetCutsTrafficOff : Obligations.ResetCutsTrafficOff := by
  unfold Obligations.ResetCutsTrafficOff
  intro s t ht
  rw [exec_reset] at ht
  cases ht
  refine ⟨rfl, ?txstep, fun y hy => execAll_lineRx_hunt rfl hy, fun hheld => ⟨fun x => ?payload, fun n info => ?information⟩,
    fun sub rest hheld ho => step_accepts_held rfl hheld (.inl ho)⟩
  case txstep => rw [exec_txstep, State.sendByte_nil rfl]
  case payload => exact exec_frTx_idle x rfl hheld
  case information => exact exec_muxTx_idle n info rfl (by simp [hheld])

end Sys2Proof.Machine

/-! SUPPORT. Where the register block stands (20_memory.md R51): no operation of the block reads REG_BASE, so a step from a state
with another base is the same step. -/

namespace Sys2Proof.Machine

/-- The same block, its registers at another base. -/
def State.withRegBase (base : Nat) (s : State) : State := { s with config := { s.config with regBase := base } }

section
variable (base : Nat) (s : State)

theorem withRegBase_lineNext (b : Byte) : lineNext b (s.withRegBase base) = (lineNext b s).withRegBase base := by
  unfold lineNext State.appendRx
  simp only [apply_ite (State.withRegBase base)]
  rfl

theorem withRegBase_sendByte : (s.withRegBase base).sendByte = s.sendByte.withRegBase base := by
  cases hq : s.txQueue with
  | nil => rw [State.sendByte_nil hq, State.sendByte_nil (s := s.withRegBase base) hq]
  | cons b q =>
    rw [State.sendByte_cons hq, State.sendByte_cons (s := s.withRegBase base) hq]
    rfl

theorem withRegBase_writeReg (d : Word32) (r : RegSel) :
    (s.withRegBase base).writeReg d r = (s.writeReg d r).withRegBase base := by
  cases r with
  | proto i =>
    by_cases hi : i.toNat < s.config.nproto
    · exact (State.setProto_of_lt (s := s.withRegBase base) hi d).trans
        (congrArg (State.withRegBase base) (State.setProto_of_lt hi d)).symm
    · exact (State.setProto_of_not_lt (s := s.withRegBase base) hi d).trans
        (congrArg (State.withRegBase base) (State.setProto_of_not_lt hi d)).symm
  | _ => rfl

theorem withRegBase_hostRead (r : RegSel) : (s.withRegBase base).hostRead r = (s.hostRead r).withRegBase base := rfl

theorem withRegBase_submit (sub : Submission) :
    (s.withRegBase base).submit sub = (s.submit sub).withRegBase base := by
  rcases s.submit_cases sub with ⟨hq, hnone, e⟩ | ⟨before, old, after, hq, hs, hbefore, hp, e⟩ | ⟨hq, e⟩ <;> rw [e]
  · exact State.submit_idle _ hq hnone
  · exact State.submit_idle_behind hq hs hbefore hp
  · exact State.submit_busy _ hq

theorem withRegBase_acceptOldest : (s.withRegBase base).acceptOldest = s.acceptOldest.withRegBase base := by
  cases hh : s.held with
  | nil => simp only [State.acceptOldest, hh, State.withRegBase]
  | cons sub rest =>
    rw [s.acceptOldest_cons hh, State.acceptOldest_cons (s.withRegBase base) hh]
    rfl

end

/-- An event does the same to a block whose registers stand elsewhere. -/
theorem exec_event_withRegBase (base : Nat) {i : Instr} {s t : State} (hi : i.format = .event) (ht : exec i s = .next t) :
    exec i (s.withRegBase base) = .next (t.withRegBase base) := by
  cases i with
  | reset => cases ht; rfl
  | lineRx b => rw [exec_lineRx] at ht ⊢; cases ht; rw [withRegBase_lineNext]
  | txstep => cases ht; rw [exec_txstep, withRegBase_sendByte]
  | hostWr off d =>
    rw [exec_hostWr] at ht ⊢
    cases ht
    exact congrArg _ (withRegBase_writeReg base s d _)
  | hostRd off =>
    rw [exec_hostRd] at ht ⊢
    cases ht
    exact congrArg _ (withRegBase_hostRead base s _)
  | frTx x => cases ht; rw [exec_frTx, withRegBase_submit]
  | muxTx n info => cases ht; rw [exec_muxTx, withRegBase_submit]
  | reserved v => cases v <;> cases ht
  | _ => cases hi

section
variable (base : Nat) {s t : State}

/-- A step that no record is presented for. -/
theorem step_withRegBase_of_no_input (hi : s.input = []) (ht : step s = .next t) :
    step (s.withRegBase base) = .next (t.withRegBase base) := by
  have ha : (s.withRegBase base).awaiting = s.awaiting := rfl
  have hq : (s.withRegBase base).txQueue = s.txQueue := rfl
  rw [step_of_no_input hi] at ht
  rw [step_of_no_input (s := s.withRegBase base) hi, ha, hq]
  split at ht
  case isTrue hawaiting =>
    cases ht
    rw [if_pos hawaiting, withRegBase_acceptOldest]
  case isFalse hawaiting =>
    rw [if_neg hawaiting]
    split at ht
    case isTrue hempty => cases ht; rw [if_pos hempty]
    case isFalse hempty => rw [if_neg hempty]; exact exec_event_withRegBase base rfl ht

/-- A step that finds a record: the record's, or that of a held submission. -/
theorem step_withRegBase_of_decode {i : Instr} {rest : List Byte} (hd : decodeEvent s.input = .ok i rest)
    (ht : step s = .next t) : step (s.withRegBase base) = .next (t.withRegBase base) := by
  have hformat := decodeEvent_format hd
  cases ha : s.awaiting with
  | false =>
    rw [step_of_decode ha hd] at ht
    exact (step_of_decode (s := s.withRegBase base) ha hd).trans (exec_event_withRegBase base hformat ht)
  | true =>
    match ho : s.order with
    | .record :: o =>
      rw [step_of_record_turn ha ho hd] at ht
      exact (step_of_record_turn (s := s.withRegBase base) ha ho hd).trans (exec_event_withRegBase base hformat ht)
    | .submission :: o =>
      have hi : s.input ≠ [] := by
        intro hnil
        rw [hnil] at hd
        cases hd
      rw [step_of_submission_turn ha ho hi] at ht
      cases ht
      exact (step_of_submission_turn (s := s.withRegBase base) ha ho hi).trans
        (congrArg _ (withRegBase_acceptOldest base { s with order := o }))
    | [] =>
      rw [step_of_order_nil ha ho] at ht
      cases ht
      exact (step_of_order_nil (s := s.withRegBase base) ha ho).trans (congrArg _ (withRegBase_acceptOldest base s))

end

/-- Settles O17: the step is chosen without a look at the parameters, and each thing a step can do is the same at another
base. -/
theorem registerBaseIsNotObservable : Obligations.RegisterBaseIsNotObservable := by
  unfold Obligations.RegisterBaseIsNotObservable
  intro s t base ht
  rcases decodeEvent_total s.input with hi | ⟨i, rest, hd⟩
  · exact step_withRegBase_of_no_input base hi ht
  · exact step_withRegBase_of_decode base hd ht

end Sys2Proof.Machine
